-- ==== Sys2Proof/Word.lean ====
section
/-! DEFINITION. The widths of 00_scope.md rule R8 as names, the frequency pair, and the clamp of rule R10. -/

namespace Sys2Proof

/-- One operation word: `OPW` = 32 bits (R8, R48). -/
abbrev Word := BitVec 32

/-- A symbol code: `SYM_W` = 8 bits, the ASCII code of the symbol (R8, R50). -/
abbrev Symbol := BitVec 8

/-- A key code: `KEY_W` = 20 bits unsigned (R8, R36). -/
abbrev KeyCode := BitVec 20

/-- One output sample: `PCM_W` = 16 bits, two's complement (R8, R98). -/
abbrev Sample := BitVec 16

/-- A frequency pair in Hz, each half `FREQ_W` = 16 bits unsigned (R16). -/
structure FreqPair where
  lo : BitVec 16
  hi : BitVec 16
  deriving DecidableEq, Repr

/-- `clamp(v, lo, hi)` of R10 on mathematical integers. -/
def clamp (v lo hi : Int) : Int :=
  if v < lo then lo else if hi < v then hi else v

end Sys2Proof
end

