-- ==== Sys2Proof/Syntax.lean ====
section
/-! DEFINITION. The two ports, the operations, one constructor for each row of spec/opcode_table.json (R49, R55), and the events of
R39 and R42. -/

namespace Sys2Proof

/-- The two input ports of R47. -/
inductive Port where
  | control
  | audio
  deriving DecidableEq, Repr

/-- The operations. PRESSM and RELM have one row, and so one constructor, for each kind (R55). -/
inductive Instr where
  /-- `PRESSD sym` (R61) -/
  | pressd (sym : Symbol)
  /-- `RELD sym` (R62) -/
  | reld (sym : Symbol)
  /-- `PRESSM DIAL` (R63) -/
  | pressmDial
  /-- `PRESSM RING` (R63) -/
  | pressmRing
  /-- `PRESSM BUSY` (R63) -/
  | pressmBusy
  /-- `RELM DIAL` (R64) -/
  | relmDial
  /-- `RELM RING` (R64) -/
  | relmRing
  /-- `RELM BUSY` (R64) -/
  | relmBusy
  /-- `SETAMP value`: the operand is the signed integer `AMPV` of R50 (R65) -/
  | setamp (ampv : Int)
  /-- `BINDKEY key, sym` (R66) -/
  | bindkey (key : KeyCode) (sym : Symbol)
  /-- `KEYDN key` (R67) -/
  | keydn (key : KeyCode)
  /-- `KEYUP key` (R68) -/
  | keyup (key : KeyCode)
  /-- `RENDER n`: `n` frames (R97) -/
  | render (n : BitVec 20)
  deriving DecidableEq, Repr

/-- The port that accepts an operation (R47, R49): RENDER the audio port, the other eight the control port. -/
def Instr.port : Instr → Port
  | .render _ => .audio
  | .pressd _ | .reld _ | .pressmDial | .pressmRing | .pressmBusy | .relmDial | .relmRing | .relmBusy
  | .setamp _ | .bindkey _ _ | .keydn _ | .keyup _ => .control

namespace Machine

/-- The three shared fields of R40. -/
inductive SignalField where
  | mode
  | freq
  | ampl
  deriving DecidableEq, Repr

/-- The events of R39 that reach the hardware from outside, and those into which R42 takes a press and a block start
apart when `SNAP_ATOMIC` is false. A word is executed whole when it is presented (R47); the same RENDER may instead be
taken apart into the start of its block and its samples, so that control words and a reset can fall between them
(R101, R122; log entry 3). -/
inductive Input where
  /-- the reset input (R121) -/
  | reset
  /-- a word presented on a port and executed whole (R47); under R42, of a press the first write only -/
  | word (port : Port) (w : Word)
  /-- a word on the audio port of which, when it is a RENDER, only the block start is executed (R39) -/
  | blockStart (w : Word)
  /-- the block in progress produces its next sample (R39) -/
  | sample
  /-- the second write of a press, `MODE` (R42 (a)) -/
  | modeWrite
  /-- the read of one field into `SNAP` (R42 (b)) -/
  | read (f : SignalField)
  deriving DecidableEq, Repr

end Machine

end Sys2Proof
end

