-- ==== Sys2Proof/WellFormed.lean ====
section
/-! DEFINITION. Which operations an operation word can carry: the operand ranges of R50 and R56. -/

namespace Sys2Proof

/-- `AMPV` fits the signed 20-bit field (R50: `-524288 .. 524287`). Every other operand's type is the
width of its field, so it is in range as it stands. -/
def Instr.wellFormed : Instr → Bool
  | .setamp v => decide (-524288 ≤ v) && decide (v ≤ 524287)
  | .pressd _ | .reld _ | .pressmDial | .pressmRing | .pressmBusy | .relmDial | .relmRing | .relmBusy
  | .bindkey _ _ | .keydn _ | .keyup _ | .render _ => true

end Sys2Proof
end

