-- ==== Sys2Proof/Decode.lean ====
section
/-! DEFINITION. The decoder of 30_encoding.md rule R53, total on every word of either port, and the encoder of R48 to R50. -/

namespace Sys2Proof

/-- `OP` = w[31:28] (R48). -/
def opField (w : Word) : BitVec 4 := w.extractLsb' 28 4

/-- `A` = w[27:20] (R48). -/
def aField (w : Word) : BitVec 8 := w.extractLsb' 20 8

/-- `IMM` = w[19:0] (R48). -/
def immField (w : Word) : BitVec 20 := w.extractLsb' 0 20

/-- Why a word is illegal: the four cases of R52. The hardware records none of this (R107). -/
inductive IllegalWord where
  /-- (a) `OP` is 0x0 or 0xA to 0xF -/
  | undefinedOp
  /-- (b) a must-be-zero field is not zero -/
  | mustBeZero
  /-- (c) PRESSM or RELM with a `KIND` other than 2, 3, 4 -/
  | undefinedKind
  /-- (d) the word is on the wrong port -/
  | wrongPort
  deriving DecidableEq, Repr

/-- An operation whose field `f` must be zero (R51). -/
def needZero {n : Nat} (f : BitVec n) (i : Instr) : Except IllegalWord Instr :=
  if f = 0 then .ok i else .error .mustBeZero

/-- The operand `KIND` = `A` (R50): 2 = Dial, 3 = Ring, 4 = Busy, any other value illegal. -/
def kindOperand (a : BitVec 8) (imm : BitVec 20) (dial ring busy : Instr) : Except IllegalWord Instr :=
  if a = 2 then needZero imm dial
  else if a = 3 then needZero imm ring
  else if a = 4 then needZero imm busy
  else .error .undefinedKind

/-- `AMPV` = signed(`IMM`) (R50). -/
def ampvOf (imm : BitVec 20) : Int := imm.toInt

/-- The control port's part of R53. -/
def decodeControl (op : BitVec 4) (a : BitVec 8) (imm : BitVec 20) : Except IllegalWord Instr :=
  match op.toNat with
  | 1 => needZero imm (.pressd a)
  | 2 => needZero imm (.reld a)
  | 3 => kindOperand a imm .pressmDial .pressmRing .pressmBusy
  | 4 => kindOperand a imm .relmDial .relmRing .relmBusy
  | 5 => needZero a (.setamp (ampvOf imm))
  | 6 => .ok (.bindkey imm a)
  | 7 => needZero a (.keydn imm)
  | 8 => needZero a (.keyup imm)
  | 9 => .error .wrongPort
  | _ => .error .undefinedOp

/-- The audio port's part of R53. -/
def decodeAudio (op : BitVec 4) (a : BitVec 8) (imm : BitVec 20) : Except IllegalWord Instr :=
  match op.toNat with
  | 9 => needZero a (.render imm)
  | 1 | 2 | 3 | 4 | 5 | 6 | 7 | 8 => .error .wrongPort
  | _ => .error .undefinedOp

/-- R53: decoding is a total function of (port, word). -/
def decode (port : Port) (w : Word) : Except IllegalWord Instr :=
  match port with
  | .control => decodeControl (opField w) (aField w) (immField w)
  | .audio => decodeAudio (opField w) (aField w) (immField w)

/-- `OP ++ A ++ IMM` (R48). -/
def packWord (op : BitVec 4) (a : BitVec 8) (imm : BitVec 20) : Word := op ++ a ++ imm

/-- The word of an operation, from the tables of R49 and R56. -/
def encode : Instr → Word
  | .pressd sym => packWord 0x1 sym 0
  | .reld sym => packWord 0x2 sym 0
  | .pressmDial => packWord 0x3 2 0
  | .pressmRing => packWord 0x3 3 0
  | .pressmBusy => packWord 0x3 4 0
  | .relmDial => packWord 0x4 2 0
  | .relmRing => packWord 0x4 3 0
  | .relmBusy => packWord 0x4 4 0
  | .setamp v => packWord 0x5 0 (BitVec.ofInt 20 v)
  | .bindkey key sym => packWord 0x6 sym key
  | .keydn key => packWord 0x7 0 key
  | .keyup key => packWord 0x8 0 key
  | .render n => packWord 0x9 0 n

/-- The port on which a word of the opcode table is presented: the audio port when `OP` is RENDER's 0x9,
the control port otherwise (R49; log entry 14). -/
def portOfWord (w : Word) : Port :=
  if opField w = 0x9 then .audio else .control

/-- The word whose bits are `w`, of which `nbits` are given and those above are zero. -/
def tableWord (nbits w : Nat) : Word := BitVec.ofNat 32 (w % 2 ^ nbits)

/-- What the decoder reads from a word of the opcode table, on the port its `OP` belongs to. -/
def decodeTableWord (nbits w : Nat) : Option Instr :=
  match decode (portOfWord (tableWord nbits w)) (tableWord nbits w) with
  | .ok i => some i
  | .error _ => none

end Sys2Proof
end

