-- ==== Sys2Proof/Machine/FreqTable.lean ====
section
/-! DEFINITION. The content of the Frequency Table `FTAB` (20_memory.md rule R32; conflict C2 is settled there). -/

namespace Sys2Proof.Machine

/-- One row of the standard matrix (R32): the symbol's code and its crossing. -/
def ftabRow (sym : Symbol) (lo hi : BitVec 16) : Symbol × FreqPair := (sym, { lo := lo, hi := hi })

/-- The sixteen rows of R32, by the rows of the keypad: 697, 770, 852 and 941 Hz. -/
def ftabRows : List (Symbol × FreqPair) :=
  [ftabRow 0x31 697 1209, ftabRow 0x32 697 1336, ftabRow 0x33 697 1477, ftabRow 0x41 697 1633] ++
  [ftabRow 0x34 770 1209, ftabRow 0x35 770 1336, ftabRow 0x36 770 1477, ftabRow 0x42 770 1633] ++
  [ftabRow 0x37 852 1209, ftabRow 0x38 852 1336, ftabRow 0x39 852 1477, ftabRow 0x43 852 1633] ++
  [ftabRow 0x2A 941 1209, ftabRow 0x30 941 1336, ftabRow 0x23 941 1477, ftabRow 0x44 941 1633]

/-- The read of a table row by symbol code; `none` is the failed lookup of R33. -/
def ftabFind : List (Symbol × FreqPair) → Symbol → Option FreqPair
  | [], _ => none
  | (code, pair) :: rows, sym => if code = sym then some pair else ftabFind rows sym

end Sys2Proof.Machine
end

