-- ==== Sys2Proof/Config.lean ====
section
/-! DEFINITION. The parameters of 00_scope.md rule R8, their values for this hardware, and the stream of events of
R24. -/

namespace Sys2Proof

/-- `RELD_POLICY` (R8, R62): `ALWAYS` or `MATCH`. -/
inductive ReldPolicy where
  | always
  | onMatch
  deriving DecidableEq, Repr

/-- `PCM_BYTE_ORDER` (R8, R37): where a platform puts the low byte of a stored sample. -/
inductive ByteOrder where
  | littleEndian
  | bigEndian
  deriving DecidableEq, Repr

/-- `SINFN` (R8, R87, U15): the exact real sine, or a function of the phase index given as a table: its value at phase
index `p` is the fraction `nums[p] / den`, and 0 beyond the table. -/
inductive SineFn where
  | real
  | table (den : Nat) (nums : List Int)
  deriving DecidableEq, Repr

/-- `ROUND` (R8, U16): how a real sample value becomes an integer. R84 fixes `towardZero`; the other two are the ways a
model may test that decision against (log entry 26). -/
inductive Rounding where
  /-- toward zero: `trunc` of R10 -/
  | towardZero
  /-- to the largest integer not above -/
  | down
  /-- to the nearest integer, halves away from zero -/
  | nearest
  deriving DecidableEq, Repr

/-- The parameters of R8: an argument of the step (`Machine.stepWith`) and no part of the state (R24). The widths are
the types of Word.lean and of the registers, and `BLOCK_N` is RENDER's operand. -/
structure Config where
  /-- `FS`: sample rate in Hz, positive (D6) -/
  fs : Nat
  /-- `REF_FREQ`: the dial, ring and busy tone, in Hz -/
  refFreq : Int
  /-- `AMP_MIN` (R17) -/
  ampMin : Int
  /-- `AMP_MAX` (R17) -/
  ampMax : Int
  /-- `AMP_RESET`, between the bounds (D8) -/
  ampReset : BitVec 14
  /-- `RING_PERIOD_S`, in seconds (R83) -/
  ringPeriodS : Nat
  /-- `RING_ON_S`, in seconds (R83) -/
  ringOnS : Nat
  /-- `BUSY_PERIOD_S`, in seconds (R83) -/
  busyPeriodS : Nat
  /-- `BUSY_ON_S`, numerator: the on-time is the fraction `busyOnNum / busyOnDen` of a second (R83) -/
  busyOnNum : Nat
  /-- `BUSY_ON_S`, denominator -/
  busyOnDen : Nat
  /-- `FTAB` (D23) -/
  ftab : List (Symbol × FreqPair)
  /-- `RELD_POLICY` (D17) -/
  reldPolicy : ReldPolicy
  /-- `SNAP_ATOMIC` (R39, R42, D18) -/
  snapAtomic : Bool
  /-- `SINFN` (R87, D11) -/
  sinFn : SineFn
  /-- `ROUND` (R84, D11) -/
  round : Rounding
  /-- `PCM_BYTE_ORDER` (D20) -/
  pcmByteOrder : ByteOrder
  deriving DecidableEq, Repr

namespace Config

/-- The values of this hardware (R8). -/
def hw : Config where
  fs := 48000
  refFreq := 425
  ampMin := 0
  ampMax := 10000
  ampReset := 5000
  ringPeriodS := 5
  ringOnS := 1
  busyPeriodS := 1
  busyOnNum := 1
  busyOnDen := 2
  ftab := Machine.ftabRows
  reldPolicy := .always
  snapAtomic := true
  sinFn := .real
  round := .towardZero
  pcmByteOrder := .littleEndian

/-- The sixteen symbol codes of R32. -/
def symbols : List Symbol :=
  [0x30, 0x31, 0x32, 0x33, 0x34, 0x35, 0x36, 0x37, 0x38, 0x39, 0x2A, 0x23, 0x41, 0x42, 0x43, 0x44]

/-- What R8, R34, D6 and D8 ask of the values: a positive rate, the amplitude's reset value between its bounds and
the bounds in its register, on-times within their periods, and a table that defines exactly the sixteen symbols, each
once. -/
abbrev ok (c : Config) : Prop :=
  0 < c.fs ∧ (0 ≤ c.ampMin ∧ c.ampMin ≤ c.ampReset.toNat ∧ (c.ampReset.toNat : Int) ≤ c.ampMax ∧ c.ampMax < 2 ^ 14) ∧
    (0 < c.ringPeriodS ∧ c.ringOnS ≤ c.ringPeriodS) ∧
    (0 < c.busyPeriodS ∧ 0 < c.busyOnDen ∧ c.busyOnNum ≤ c.busyPeriodS * c.busyOnDen) ∧
    (c.ftab.map (·.1)).Nodup ∧ ∀ y : Symbol, y ∈ c.ftab.map (·.1) ↔ y ∈ symbols

/-- FREE VALUE (log entry 1): the events that the agents and the reset input issue, in their total order (R24, R39),
`none` where none comes. It has no body, so what is proved of `Machine.step` holds whatever they issue; it is
`Machine.stepWith` with this stream. -/
opaque agents : Nat → Option Machine.Input

end Config

end Sys2Proof
end

