-- ==== Sys2Proof/Machine/State.lean ====
section
/-! DEFINITION. The state of 10_state.md (R13), the reset value of R26 and the reasons a step can stop. -/

namespace Sys2Proof.Machine

/-- The five modes of R15. Codes 5, 6 and 7 are never held, and this type cannot form them (D25). -/
inductive Mode where
  | idle
  | digitActive
  | dialTone
  | ringTone
  | busyTone
  deriving DecidableEq, Repr

/-- The values of the register `FAULT` (R20); code 3 is never held. -/
inductive FaultCode where
  | noFault
  | unknownSymbol
  | illegalCommand
  deriving DecidableEq, Repr

/-- `SNAP` (R21): a copy of `MODE`, `FREQ` and `AMPL`. -/
structure Snapshot where
  mode : Mode
  freq : FreqPair
  ampl : BitVec 14
  deriving DecidableEq, Repr

/-- A block in progress: `base` and `N` of the loop of R97 and how many of its samples have been produced. -/
structure Block where
  base : BitVec 64
  frames : Nat
  produced : Nat
  deriving DecidableEq, Repr

/-- What R42 leaves to do, and only with `SNAP_ATOMIC` false: the `MODE` write of a press, and the fields that the block
in progress has still to read. -/
structure Outstanding where
  modeWrite : Bool
  reads : List SignalField
  deriving DecidableEq, Repr

/-- Nothing is left to do: always so with `SNAP_ATOMIC` true. -/
def Outstanding.nothing : Outstanding := { modeWrite := false, reads := [] }

/-- The table `KEYMAP` (R36): the bound rows as (key code, symbol) cells, keys strictly rising. An unlisted key is
unbound. -/
abbrev KeyMap := List Host.Cell

/-- The state of the hardware: the registers and tables of R13 and the block in progress. No parameter of R8, no
operation still to be issued and no delivered sample is part of it (R24). -/
structure Hardware where
  /-- `MODE` (R15) -/
  mode : Mode
  /-- `FREQ` (R16) -/
  freq : FreqPair
  /-- `AMPL` (R17) -/
  ampl : BitVec 14
  /-- `SCLK` (R18) -/
  sclk : BitVec 64
  /-- `LASTSYM` (R19): `some y` is `valid(y)` -/
  lastsym : Option Symbol
  /-- `FAULT` (R20) -/
  fault : FaultCode
  /-- `SNAP` (R21) -/
  snap : Snapshot
  /-- `KEYMAP` (R22, R36) -/
  keymap : KeyMap
  /-- the block in progress, if there is one (R97, R122) -/
  block : Option Block
  /-- what an event taken apart leaves to do (R42); never anything on this hardware -/
  outstanding : Outstanding
  deriving DecidableEq, Repr

/-- The hardware beside what the host's closed form of a step needs: the event on the ports, the number of events so
far, and a record of the output. None is state of the hardware (R24), and the stream of events to come is in neither:
it is an argument of `stepWith`. -/
structure State extends Hardware where
  /-- the words delivered on the `pcm` output since reset, oldest first (R29, R98; log entry 2) -/
  pcm : List Sample
  /-- the event now on the inputs, if one has been placed there; else the next of the stream is (log entries 1, 14) -/
  presented : Option Input
  /-- how many steps have been taken: the place in the stream (log entry 1) -/
  time : Nat
  deriving DecidableEq, Repr

/-- Why a step stops with a fault of the model. (The hardware's own faults are values of the register `FAULT`: R109
keeps the machine running.) -/
inductive Fault where
  /-- Raised by RENDER, and by the start of a block, while a block is in progress: "not defined" (R100), "stuck"
  (U12). Safe: the hardware is given no behaviour here, and AUDIO never issues such a word. -/
  | renderOverlap
  /-- Raised, and only with `SNAP_ATOMIC` false, by a control word before the `MODE` write of the press before it, and by
  a sample before its block has read its three fields: DEDUCED, the model's reading of R42 (log entry 15): the agents take
  no such step. Safe: the spec defines no behaviour here. -/
  | splitOrder
  deriving DecidableEq, Repr

/-- Why a step gives no meaning to an instruction. -/
inductive Refusal where
  /-- Raised by an arm of `exec` whose instruction has no meaning yet; no arm does. Safe. -/
  | notModelled (mnemonic : String)
  deriving DecidableEq, Repr

namespace State

def setMode (s : State) (m : Mode) : State := { s with mode := m }
def setFreq (s : State) (p : FreqPair) : State := { s with freq := p }
def setAmpl (s : State) (a : BitVec 14) : State := { s with ampl := a }
def setSclk (s : State) (n : BitVec 64) : State := { s with sclk := n }
def setLastsym (s : State) (l : Option Symbol) : State := { s with lastsym := l }
def setFault (s : State) (f : FaultCode) : State := { s with fault := f }
def setSnap (s : State) (x : Snapshot) : State := { s with snap := x }
def setKeymap (s : State) (m : KeyMap) : State := { s with keymap := m }
def setBlock (s : State) (b : Option Block) : State := { s with block := b }
def setPcm (s : State) (l : List Sample) : State := { s with pcm := l }
def setOutstanding (s : State) (o : Outstanding) : State := { s with outstanding := o }
def setPresented (s : State) (e : Option Input) : State := { s with presented := e }
def setTime (s : State) (n : Nat) : State := { s with time := n }

/-- The reset value of R26 under a configuration. `SNAP` is unspecified there; its value here is log entry 4's. -/
def resetWith (c : Config) : State where
  mode := .idle
  freq := { lo := 0, hi := 0 }
  ampl := c.ampReset
  sclk := 0
  lastsym := none
  fault := .noFault
  snap := { mode := .idle, freq := { lo := 0, hi := 0 }, ampl := 0 }
  keymap := []
  block := none
  outstanding := .nothing
  pcm := []
  presented := none
  time := 0

/-- The state of this hardware right after reset (R26). -/
def reset : State := resetWith Config.hw

end State

end Sys2Proof.Machine
end

