-- ==== Sys2Proof/Machine/Flags.lean ====
section
/-! DEFINITION. The hardware's one status flag, the register `FAULT` (R20), its codes and its update. No operation computes a
condition code (R20, R71). -/

namespace Sys2Proof.Machine

/-- The codes of R20, R106 and R107. -/
def FaultCode.code : FaultCode → BitVec 2
  | .noFault => 0
  | .unknownSymbol => 1
  | .illegalCommand => 2

/-- The sticky update of R108: the first fault since reset is kept. -/
def stickyFault (held raised : FaultCode) : FaultCode :=
  if held = .noFault then raised else held

/-- The status output `fault` of R29: always the current value of `FAULT`. -/
def faultOutput (s : State) : BitVec 2 := s.fault.code

end Sys2Proof.Machine
end

