-- ==== Sys2Proof/Machine/Operands.lean ====
section
/-! DEFINITION. What the operand fields stand for: the codes of the modes (R15), the lookup of a symbol (R33), the amplitude
(R65), and the byte layout a platform gives a sample (R37). -/

namespace Sys2Proof.Machine

/-- The mode codes of R15. -/
def Mode.code : Mode → BitVec 3
  | .idle => 0
  | .digitActive => 1
  | .dialTone => 2
  | .ringTone => 3
  | .busyTone => 4

/-- `FTAB[sym]` (R33): `none` raises `UnknownSymbol`. -/
def lookup (c : Config) (sym : Symbol) : Option FreqPair := ftabFind c.ftab sym

/-- The amplitude SETAMP stores: `clamp(ampv, AMP_MIN, AMP_MAX)` in the 14 bits of `AMPL` (R65, R17). -/
def amplOperand (c : Config) (ampv : Int) : BitVec 14 := BitVec.ofInt 14 (clamp ampv c.ampMin c.ampMax)

/-- The two bytes of a stored sample, the lower address first (R37). -/
def sampleBytes (order : ByteOrder) (w : Sample) : List (BitVec 8) :=
  let low := w.extractLsb' 0 8
  let high := w.extractLsb' 8 8
  match order with
  | .littleEndian => [low, high]
  | .bigEndian => [high, low]

end Sys2Proof.Machine
end

