-- ==== Sys2Proof/Machine/Ops.lean ====
section
/-! DEFINITION. The operations the meanings share: reading and writing `KEYMAP` (R36), raising a fault (R108), a digit press
(R61), a release (R62, R68), the press of a bound key (R67). -/

namespace Sys2Proof.Machine

/-- `KEYMAP[key]` (R36): `none` is `unbound`. -/
def KeyMap.read : KeyMap → Nat → Option Symbol
  | [], _ => none
  | (k, sym) :: rest, key => if k = key then some sym else KeyMap.read rest key

/-- `KEYMAP[key] <- bound(sym)` (R36), keeping the rows in rising order of their keys. -/
def KeyMap.bind : KeyMap → Nat → Symbol → KeyMap
  | [], key, sym => [(key, sym)]
  | (k, old) :: rest, key, sym =>
    if key < k then (key, sym) :: (k, old) :: rest
    else if key = k then (key, sym) :: rest
    else (k, old) :: KeyMap.bind rest key sym

/-- The canonical form: keys strictly rising and below 2^20 (R36). An unlisted key reads `unbound`, which no
entry can be, so equal tables are equal lists. -/
abbrev KeyMap.wf (m : KeyMap) : Prop :=
  m.Pairwise (fun a b => a.1 < b.1) ∧ ∀ cell ∈ m, cell.1 < 2 ^ 20

/-- `raise f` (R108): the only entry a fault has (R112). There is no return from it: only reset clears `FAULT`. -/
def raise (f : FaultCode) (s : State) : State := s.setFault (stickyFault s.fault f)

/-- What a press writes once its lookup has succeeded (R61): all of it in one event, or, with `SNAP_ATOMIC` false, the first
of two writes, `FREQ` with `LASTSYM` joined to it, the write of `MODE` outstanding (R42 (a)). -/
def startDigit (c : Config) (sym : Symbol) (pair : FreqPair) (s : State) : State :=
  if c.snapAtomic then ((s.setFreq pair).setMode .digitActive).setLastsym (some sym)
  else ((s.setFreq pair).setLastsym (some sym)).setOutstanding { s.outstanding with modeWrite := true }

/-- A digit press (R61): the lookup comes first, and a failed lookup writes `FAULT` and nothing else. -/
def pressDigit (c : Config) (sym : Symbol) (s : State) : State :=
  match lookup c sym with
  | some pair => startDigit c sym pair s
  | none => raise .unknownSymbol s

/-- The press of the symbol bound to a key, or nothing (R67). -/
def pressBound (c : Config) (key : KeyCode) (s : State) : State :=
  match s.keymap.read key.toNat with
  | none => s
  | some sym => pressDigit c sym s

/-- A release that clears only when `sym` is the symbol most recently pressed (R62 under `MATCH`, R68). -/
def releaseOnMatch (sym : Symbol) (s : State) : State :=
  if s.lastsym = some sym then s.setMode .idle else s

/-- The release of an on-screen digit button under either policy (R62). -/
def releaseDigit (policy : ReldPolicy) (sym : Symbol) (s : State) : State :=
  match policy with
  | .always => s.setMode .idle
  | .onMatch => releaseOnMatch sym s

end Sys2Proof.Machine
end

