-- ==== Sys2Proof/Machine/Digits.lean ====
section
/-! DEFINITION. The on-screen digit buttons: PRESSD (R61) and RELD (R62). -/

namespace Sys2Proof.Machine

/-- `PRESSD sym` (R61). -/
def execPressd (sym : Symbol) (s : State) : Host.Outcome State Fault Refusal :=
  .next (pressDigit Config.hw sym s)

/-- `RELD sym` (R62), under the hardware's `RELD_POLICY`. -/
def execReld (sym : Symbol) (s : State) : Host.Outcome State Fault Refusal :=
  .next (releaseDigit Config.hw.reldPolicy sym s)

end Sys2Proof.Machine
end

