-- ==== Sys2Proof/Machine/Keys.lean ====
section
/-! DEFINITION. The bound keys: BINDKEY (R66), KEYDN (R67), KEYUP (R68). -/

namespace Sys2Proof.Machine

/-- `BINDKEY key, sym` (R66): `sym` is stored as it is, with no lookup. -/
def execBindkey (key : KeyCode) (sym : Symbol) (s : State) : Host.Outcome State Fault Refusal :=
  .next (s.setKeymap (s.keymap.bind key.toNat sym))

/-- `KEYDN key` (R67): a press of the bound symbol, or nothing. -/
def execKeydn (key : KeyCode) (s : State) : Host.Outcome State Fault Refusal :=
  .next (pressBound Config.hw key s)

/-- `KEYUP key` (R68): a release that asks whether the bound symbol is `LASTSYM`, and nothing of `MODE` (D27). -/
def execKeyup (key : KeyCode) (s : State) : Host.Outcome State Fault Refusal :=
  match s.keymap.read key.toNat with
  | none => .next s
  | some sym => .next (releaseOnMatch sym s)

end Sys2Proof.Machine
end

