-- ==== Sys2Proof/Machine/Modes.lean ====
section
/-! DEFINITION. The mode buttons, PRESSM (R63) and RELM (R64), and the amplitude, SETAMP (R65). -/

namespace Sys2Proof.Machine

/-- `PRESSM DIAL` (R63). -/
def execPressmDial (s : State) : Host.Outcome State Fault Refusal := .next (s.setMode .dialTone)

/-- `PRESSM RING` (R63). -/
def execPressmRing (s : State) : Host.Outcome State Fault Refusal := .next (s.setMode .ringTone)

/-- `PRESSM BUSY` (R63). -/
def execPressmBusy (s : State) : Host.Outcome State Fault Refusal := .next (s.setMode .busyTone)

/-- `RELM DIAL` (R64): the kind is not compared with `MODE`. -/
def execRelmDial (s : State) : Host.Outcome State Fault Refusal := .next (s.setMode .idle)

/-- `RELM RING` (R64). -/
def execRelmRing (s : State) : Host.Outcome State Fault Refusal := .next (s.setMode .idle)

/-- `RELM BUSY` (R64). -/
def execRelmBusy (s : State) : Host.Outcome State Fault Refusal := .next (s.setMode .idle)

/-- `SETAMP ampv` (R65). -/
def execSetamp (ampv : Int) (s : State) : Host.Outcome State Fault Refusal := .next (s.setAmpl (amplOperand Config.hw ampv))

end Sys2Proof.Machine
end

