-- ==== Sys2Proof/Machine/Sine.lean ====
section
/-! DEFINITION. `SINFN`, the exact real sine of R78, R79 and R87, in integers: the phases at which it is a number
`(a + b·√5)/4`, and for every phase a value of any wanted precision with a stated error (log entry 6). -/

namespace Sys2Proof.Machine

/-- `sin(2π·k/12) = a/4` at the twelfths of a turn where it is rational (R79). -/
def twelfthSine : Nat → Option (Int × Int)
  | 0 | 6 => some (0, 0)
  | 1 | 5 => some (2, 0)
  | 3 => some (4, 0)
  | 7 | 11 => some (-2, 0)
  | 9 => some (-4, 0)
  | _ => none

/-- `sin(2π·k/20) = (a + b·√5)/4` at the twentieths of a turn where it has that form: 18°, 54° and their mirror
images. Two of these can have a rational sum: `sin 54° - sin 18° = 1/2`. -/
def twentiethSine : Nat → Option (Int × Int)
  | 1 | 9 => some (-1, 1)
  | 3 | 7 => some (1, 1)
  | 11 | 19 => some (1, -1)
  | 13 | 17 => some (-1, -1)
  | _ => none

/-- `some (a, b)` when `sin(2π·p/fs) = (a + b·√5)/4` is read off the two tables. -/
def exactSine (fs p : Nat) : Option (Int × Int) :=
  if 12 * p % fs = 0 then twelfthSine (12 * p / fs)
  else if 20 * p % fs = 0 then twentiethSine (20 * p / fs)
  else none

/-- Whether the sines at two phase indices are opposite by the symmetries of R79: the phases add up to a whole number
of turns, or lie half a turn apart. -/
def oppositePhases (fs p q : Nat) : Bool :=
  decide ((p + q) % fs = 0) || decide ((2 * p + fs) % (2 * fs) = 2 * q % (2 * fs))

/-! A precision `w` counts bits: the unit is `1 / 2^w`. -/

/-- The first terms of the series of `arctan (1/m)`, each rounded down to a unit. -/
def arctanUnits (w m : Nat) : (terms : Nat) → Int
  | 0 => 0
  | i + 1 =>
    let term : Int := ((2 ^ w / (m ^ (2 * i + 1) * (2 * i + 1)) : Nat) : Int)
    if i % 2 = 0 then arctanUnits w m i + term else arctanUnits w m i - term

/-- π in units, by `π = 16·arctan (1/5) - 4·arctan (1/239)`. -/
def machinPi (w : Nat) : Int := 16 * arctanUnits w 5 (w / 4 + 1) - 4 * arctanUnits w 239 (w / 12 + 1)

/-- π in units of `1 / 2^196`, rounded down. -/
def piHead : Int := 0x3243F6A8885A308D313198A2E03707344A4093822299F31D00

/-- π in units: the bits at hand, or as many more as the precision asks for. -/
def piUnits (w : Nat) : Int := if w ≤ 196 then piHead / 2 ^ (196 - w) else machinPi w

/-- Numerator and denominator of `1 - z/(2k(2k+1))·(1 - z/((2k+2)(2k+3))·(…))`, `z = a2/b2`, with the given number of
factors: the Taylor polynomial of `sin θ / θ` at `z = θ²` when `k = 1`. -/
def taylorTail (a2 b2 : Int) : (factors k : Nat) → Int × Int
  | 0, _ => (1, 1)
  | factors + 1, k =>
    let v := taylorTail a2 b2 factors (k + 1)
    let d := v.2 * (b2 * (2 * k * (2 * k + 1)))
    (d - a2 * v.1, d)

/-- How many factors of the Taylor polynomial follow the first at a precision. -/
def taylorTerms (w : Nat) : Nat := w / 6 + 3

/-- `sin(π·x/d)` for `0 ≤ 2x ≤ d`, in units, rounded down. -/
def quarterSine (w d x : Nat) : Int :=
  let a := piUnits w * x
  let b : Int := 2 ^ w * d
  let v := taylorTail (a * a) (b * b) (taylorTerms w) 1
  2 ^ w * a * v.1 / (b * v.2)

/-- `sin(π·x/d)` for `0 ≤ x ≤ d`: the second quarter of the turn mirrors the first (R79). -/
def halfSine (w d x : Nat) : Int :=
  if d < 2 * x then quarterSine w d (d - x) else quarterSine w d x

/-- `sin(2π·p/fs)` for `0 ≤ p < fs`, in units, within `sineError w` units: the second half of the turn is the first
with its sign changed (R79). -/
def fixedSine (w fs p : Nat) : Int :=
  if fs < 2 * p then -halfSine w fs (2 * (fs - p)) else halfSine w fs (2 * p)

/-- How far `fixedSine` may lie from the sine, in units, at a precision of at least 64 bits. -/
def sineError (w : Nat) : Int := 3 * w + 32

end Sys2Proof.Machine
end

