-- ==== Sys2Proof/Machine/Synth.lean ====
section
/-! DEFINITION. The function `SYNTH` of 41_synth.md: the tones of a mode (R77, R80 to R83), their phase indices (R78), the
rounding of the ideal value (R84) and the saturation (R84). -/

namespace Sys2Proof.Machine

/-- The phase index of R78: `(f·n) mod FS`. -/
def phaseIndex (fs : Nat) (f : Int) (n : Nat) : Nat := (f * (n : Int) % (fs : Int)).toNat

/-- RingTone is on when `(t mod 5) < 1`, that is `n mod (5·FS) < FS` (R83). -/
def ringOn (c : Config) (n : Nat) : Bool := decide (n % (c.ringPeriodS * c.fs) < c.ringOnS * c.fs)

/-- BusyTone is on when `(t mod 1) < 1/2`, that is `2·(n mod FS) < FS` (R83). -/
def busyOn (c : Config) (n : Nat) : Bool :=
  decide (c.busyOnDen * (n % (c.busyPeriodS * c.fs)) < c.busyOnNum * c.fs)

/-- The frequencies whose sines are summed at time index `n` (R77, R80 to R83). -/
def tones (c : Config) (mode : Mode) (lo hi : Int) (n : Nat) : List Int :=
  match mode with
  | .idle => []
  | .digitActive => [lo, hi]
  | .dialTone => [c.refFreq]
  | .ringTone => if ringOn c n then [c.refFreq] else []
  | .busyTone => if busyOn c n then [c.refFreq] else []

/-- The phase indices of the tones at time index `n`. -/
def phases (c : Config) (mode : Mode) (lo hi : Int) (n : Nat) : List Nat :=
  (tones c mode lo hi n).map fun f => phaseIndex c.fs f n

/-- `some (a, b)` when every sine of the sum is read off the tables and the sum is `(a + b·√5)/4`. -/
def exactSum (fs : Nat) : List Nat → Option (Int × Int)
  | [] => some (0, 0)
  | p :: ps =>
    match exactSine fs p, exactSum fs ps with
    | some x, some y => some (x.1 + y.1, x.2 + y.2)
    | _, _ => none

/-- `some a` when the tables or a symmetry of R79 show that the sum of the sines is the rational number `a/4`. -/
def quarters (fs : Nat) (ps : List Nat) : Option Int :=
  let tabled : Option Int :=
    match exactSum fs ps with
    | some (a, b) => if b = 0 then some a else none
    | none => none
  match ps with
  | [p, q] => if oppositePhases fs p q then some 0 else tabled
  | _ => tabled

/-- The sum of the sines in units of `1 / 2^w`, within `sineError w` units a tone. -/
def fixedSum (w fs : Nat) : List Nat → Int
  | [] => 0
  | p :: ps => fixedSine w fs p + fixedSum w fs ps

/-- The integer that the fraction `a / d`, `d > 0`, rounds to. -/
def roundQuot (r : Rounding) (a d : Int) : Int :=
  match r with
  | .towardZero => a.tdiv d
  | .down => a / d
  | .nearest => if 0 ≤ a then (2 * a + d) / (2 * d) else -((d - 2 * a) / (2 * d))

/-- The roundings of the two ends of an enclosure of the ideal value `ampl · Σ sin`. The first is at most, the second at
least, the rounding of the ideal value. -/
def roundBounds (r : Rounding) (w fs : Nat) (ps : List Nat) (ampl : Int) : Int × Int :=
  let mid := ampl * fixedSum w fs ps
  let err := sineError w * ps.length * ampl.natAbs
  (roundQuot r (mid - err) (2 ^ w), roundQuot r (mid + err) (2 ^ w))

/-- A precision at which the enclosure is narrower than the distance of the ideal value from any half or whole integer
that it is not. Twice that distance is the size of a sum of roots of unity of order `4·fs` with integer coefficients,
and no such sum other than 0 is smaller than the inverse of a power of its coefficients' sum (log entry 6). -/
def separationBits (fs : Nat) (ps : List Nat) (ampl : Int) : Nat :=
  2 * (4 * fs + 1) * (Nat.log2 (4 * ps.length * ampl.natAbs + 4) + 1)

/-- Of two different roundings of the ends of the narrowest enclosure, the one of the point between them at which the
rounding jumps, which is then the ideal value itself. -/
def atJump (r : Rounding) (ends : Int × Int) : Int :=
  match r with
  | .down => ends.2
  | .towardZero | .nearest => if ends.1.natAbs < ends.2.natAbs then ends.2 else ends.1

/-- The rounding of the ideal value, at the first precision of `w`, `2w`, `4w`, … that settles it. At the last, which is at
least `separationBits`, an enclosure in which the rounding jumps is an ideal value at the jump. -/
def settle (r : Rounding) (fs : Nat) (ps : List Nat) (ampl : Int) : (doublings w : Nat) → Int
  | 0, w => atJump r (roundBounds r w fs ps ampl)
  | doublings + 1, w =>
    let ends := roundBounds r w fs ps ampl
    if ends.1 = ends.2 then ends.1 else settle r fs ps ampl doublings (2 * w)

/-- The rounding of `ampl · Σ sin` with the real sine (R84, R87). -/
def roundedReal (r : Rounding) (fs : Nat) (ps : List Nat) (ampl : Int) : Int :=
  match quarters fs ps with
  | some a => roundQuot r (ampl * a) 4
  | none => settle r fs ps ampl (Nat.log2 (separationBits fs ps ampl) + 1) (80 + Nat.log2 ampl.natAbs)

/-- The numerator of the table's value at a phase index. -/
def tableNum (nums : List Int) (p : Nat) : Int := nums.getD p 0

/-- The rounding of `Y`, by `SINFN` and `ROUND`; on this hardware `trunc(Y)` of the real sine (R84, R87). -/
def rounded (c : Config) (ps : List Nat) (ampl : Int) : Int :=
  match c.sinFn with
  | .real => roundedReal c.round c.fs ps ampl
  | .table den nums => roundQuot c.round (ampl * (ps.map (tableNum nums)).sum) den

/-- `sat16` of R10. -/
def sat16 (z : Int) : Int := clamp z (-32768) 32767

/-- `SYNTH(mode, (lo, hi), ampl, n)` (R76), a value of `-32768 .. 32767`, on the whole domain of R86. -/
def synth (c : Config) (mode : Mode) (lo hi ampl : Int) (n : Nat) : Int :=
  sat16 (rounded c (phases c mode lo hi n) ampl)

/-- The 16-bit two's-complement word of the sample at time index `idx` of a block with snapshot `x` (R97, R98). -/
def sampleAt (c : Config) (x : Snapshot) (idx : BitVec 64) : Sample :=
  BitVec.ofInt 16 (synth c x.mode x.freq.lo.toNat x.freq.hi.toNat x.ampl.toNat idx.toNat)

end Sys2Proof.Machine
end

