-- ==== Sys2Proof/Machine/Render.lean ====
section
/-! DEFINITION. The Audio Render Loop (42_render.md): RENDER as one step placed at its block start (R97, R101), and the same block
as a start and one event a sample (R39). -/

namespace Sys2Proof.Machine

/-- What the block start copies into `SNAP` (R21, R97). -/
def State.signal (s : State) : Snapshot := { mode := s.mode, freq := s.freq, ampl := s.ampl }

/-- `(base + i) mod 2^64` (R97). -/
def sampleIndex (base : BitVec 64) (i : Nat) : BitVec 64 := base + BitVec.ofNat 64 i

/-- The samples of a block of `n` frames, in index order (R97, R98). -/
def blockSamples (c : Config) (x : Snapshot) (base : BitVec 64) (n : Nat) : List Sample :=
  (List.range n).map fun i => sampleAt c x (sampleIndex base i)

/-- A whole block of `n` frames (R97). -/
def renderBlock (c : Config) (n : Nat) (s : State) : State :=
  ((s.setSnap s.signal).setPcm (s.pcm ++ blockSamples c s.signal s.sclk n)).setSclk (sampleIndex s.sclk n)

/-- The block start alone (R39, R97): the snapshot, and the block left to its samples unless it has none. With `SNAP_ATOMIC`
false the snapshot is three reads, all outstanding (R42 (b)). -/
def beginBlock (c : Config) (n : Nat) (s : State) : State :=
  if c.snapAtomic then
    (s.setSnap s.signal).setBlock (if n = 0 then none else some { base := s.sclk, frames := n, produced := 0 })
  else
    (s.setBlock (some { base := s.sclk, frames := n, produced := 0 })).setOutstanding
      { s.outstanding with reads := [.mode, .freq, .ampl] }

/-- A RENDER request (R97): the whole block in one step (R101), or, with `SNAP_ATOMIC` false, its start, since other
events may fall between its reads. While a block is in progress the spec defines none (R100, U12). -/
def renderRequest (c : Config) (n : BitVec 20) (s : State) : Host.Outcome State Fault Refusal :=
  match s.block with
  | some _ => .fault .renderOverlap
  | none => .next (if c.snapAtomic then renderBlock c n.toNat s else beginBlock c n.toNat s)

/-- `RENDER n` (R97). -/
def execRender (n : BitVec 20) (s : State) : Host.Outcome State Fault Refusal := renderRequest Config.hw n s


/-- One sample of the block `b`, which reads `SNAP` and `b` and nothing else (R97, R101). The last one ends the block
and writes `SCLK`. -/
def blockSample (c : Config) (b : Block) (s : State) : State :=
  let t := s.setPcm (s.pcm ++ [sampleAt c s.snap (sampleIndex b.base b.produced)])
  if b.produced + 1 < b.frames then t.setBlock (some { b with produced := b.produced + 1 })
  else (t.setBlock none).setSclk (sampleIndex b.base b.frames)

/-- The event "production of one sample" (R39). With no block in progress the output carries nothing (R98). -/
def produceSample (c : Config) (s : State) : State :=
  match s.block with
  | none => s
  | some b => blockSample c b s

end Sys2Proof.Machine
end

