-- ==== Sys2Proof/Machine/Dispatch.lean ====
section
/-! DEFINITION. One arm for each operation of spec/opcode_table.json. -/

namespace Sys2Proof.Machine

-- The meaning of a legal operation (R61 to R68, R97).
def exec (i : Instr) (s : State) : Host.Outcome State Fault Refusal :=
  match i with
  | .pressd sym => Sys2Proof.Machine.execPressd sym s
  | .reld sym => Sys2Proof.Machine.execReld sym s
  | .pressmDial => Sys2Proof.Machine.execPressmDial s
  | .pressmRing => Sys2Proof.Machine.execPressmRing s
  | .pressmBusy => Sys2Proof.Machine.execPressmBusy s
  | .relmDial => Sys2Proof.Machine.execRelmDial s
  | .relmRing => Sys2Proof.Machine.execRelmRing s
  | .relmBusy => Sys2Proof.Machine.execRelmBusy s
  | .setamp ampv => Sys2Proof.Machine.execSetamp ampv s
  | .bindkey key sym => Sys2Proof.Machine.execBindkey key sym s
  | .keydn key => Sys2Proof.Machine.execKeydn key s
  | .keyup key => Sys2Proof.Machine.execKeyup key s
  | .render n => Sys2Proof.Machine.execRender n s

end Sys2Proof.Machine
end

