-- ==== Sys2Proof/Machine/Param.lean ====
section
/-! DEFINITION. The operations with the parameters of R8 as an argument (R24). `exec` is `execWith` at this hardware's values. -/

namespace Sys2Proof.Machine

/-- The meaning of an operation under the parameters `c`. -/
def execWith (c : Config) (i : Instr) (s : State) : Host.Outcome State Fault Refusal :=
  match i with
  | .pressd sym => .next (pressDigit c sym s)
  | .reld sym => .next (releaseDigit c.reldPolicy sym s)
  | .setamp ampv => .next (s.setAmpl (amplOperand c ampv))
  | .keydn key => .next (pressBound c key s)
  | .render n => renderRequest c n s
  | .pressmDial | .pressmRing | .pressmBusy | .relmDial | .relmRing | .relmBusy | .bindkey _ _ | .keyup _ => exec i s

end Sys2Proof.Machine
end

