-- ==== Sys2Proof/Machine/Split.lean ====
section
/-! DEFINITION. The events that `SNAP_ATOMIC` false adds (20_memory.md rule R42): the second write of a press, the three reads of a
block start. With `SNAP_ATOMIC` true nothing is ever outstanding and they change nothing. -/

namespace Sys2Proof.Machine

/-- The `MODE` write of the last press is outstanding, so CTRL issues no further word (R42 (a)). -/
def pressUnfinished (c : Config) (s : State) : Bool := !c.snapAtomic && s.outstanding.modeWrite

/-- The block in progress has fields to read, so it has no sample to produce yet (R42 (b)). -/
def readsUnfinished (c : Config) (s : State) : Bool := !c.snapAtomic && decide (s.outstanding.reads ≠ [])

/-- The second write of a press (R42 (a)). -/
def writeMode (c : Config) (s : State) : State :=
  if pressUnfinished c s then (s.setMode .digitActive).setOutstanding { s.outstanding with modeWrite := false } else s

/-- One field into `SNAP`. -/
def copyField (f : SignalField) (s : State) : State :=
  match f with
  | .mode => s.setSnap { s.snap with mode := s.mode }
  | .freq => s.setSnap { s.snap with freq := s.freq }
  | .ampl => s.setSnap { s.snap with ampl := s.ampl }

/-- A block of no frames ends with its block start (R97). -/
def closeEmpty (s : State) : State :=
  match s.block with
  | some b => if b.frames = 0 then s.setBlock none else s
  | none => s

/-- The read of one field that is outstanding (R42 (b)); the last read ends the block start. -/
def readField (c : Config) (f : SignalField) (s : State) : State :=
  if readsUnfinished c s && decide (f ∈ s.outstanding.reads) then
    let rest := s.outstanding.reads.erase f
    let t := (copyField f s).setOutstanding { s.outstanding with reads := rest }
    if rest = [] then closeEmpty t else t
  else s

/-- The event "production of one sample" once the block start is complete (R42 (b)). -/
def sampleEvent (c : Config) (s : State) : Host.Outcome State Fault Refusal :=
  if readsUnfinished c s then .fault .splitOrder else .next (produceSample c s)

/-- What happens when no event comes: what is outstanding is done, a block in progress runs on to its last sample
(R103), and else the hardware holds its state (R118). DESIGN CHOICE (log entry 8), with `SNAP_ATOMIC` false only:
the order of the outstanding accesses, which R42 leaves open, is here `MODE`'s write and then the reads as listed. -/
def runOn (c : Config) (s : State) : State :=
  if pressUnfinished c s then writeMode c s
  else if readsUnfinished c s then
    match s.outstanding.reads with
    | f :: _ => readField c f s
    | [] => s
  else produceSample c s

end Sys2Proof.Machine
end

