-- ==== Sys2Proof/Machine/Events.lean ====
section
/-! DEFINITION. What each event of R39 and R42 does: a word on a port (R47, R52), the start of a block, a sample, a reset (R121).
Each takes the parameters of R8 as an argument (R24); the names without `With` are this hardware's. -/

namespace Sys2Proof.Machine

/-- A word presented on a port: decoded and executed whole (R47), or `IllegalCommand` and nothing else (R52, R107). -/
def execWordWith (c : Config) (port : Port) (w : Word) (s : State) : Host.Outcome State Fault Refusal :=
  if decide (port = .control) && pressUnfinished c s then .fault .splitOrder
  else
    match decode port w with
    | .ok i => execWith c i s
    | .error _ => .next (raise .illegalCommand s)

/-- The start of the block a RENDER asks for (R39). -/
def startRender (c : Config) (n : BitVec 20) (s : State) : Host.Outcome State Fault Refusal :=
  match s.block with
  | some _ => .fault .renderOverlap
  | none => .next (beginBlock c n.toNat s)

/-- A word on the audio port of which a RENDER executes only its block start; any other word as in `execWordWith`. -/
def execBlockStartWith (c : Config) (w : Word) (s : State) : Host.Outcome State Fault Refusal :=
  match decode .audio w with
  | .ok (.render n) => startRender c n s
  | .ok _ | .error _ => execWordWith c .audio w s

/-- A reset (R121, R122): every piece of the hardware's state takes its reset value and a block in progress is gone, with
its outstanding reads. DESIGN CHOICE (log entry 25): with `SNAP_ATOMIC` false a `MODE` write that a press still has
outstanding does not happen after it, on which no rule speaks. The record of the output is emptied (log entry 2). -/
def execResetWith (c : Config) (s : State) : State := ((State.resetWith c).setPresented s.presented).setTime s.time

/-- One event of R39 or R42. -/
def execInputWith (c : Config) (e : Input) (s : State) : Host.Outcome State Fault Refusal :=
  match e with
  | .reset => .next (execResetWith c s)
  | .word port w => execWordWith c port w s
  | .blockStart w => execBlockStartWith c w s
  | .sample => sampleEvent c s
  | .modeWrite => .next (writeMode c s)
  | .read f => .next (readField c f s)

/-- An event, or none. -/
def execNextWith (c : Config) (e : Option Input) (s : State) : Host.Outcome State Fault Refusal :=
  match e with
  | some e => execInputWith c e s
  | none => .next (runOn c s)

/-- The step relation of R24: the parameters of R8 and the event, or that none comes, are its arguments, and it answers the
hardware's next state and the samples delivered (R29). -/
def hardwareStep (c : Config) (e : Option Input) (h : Hardware) : Host.Outcome (Hardware × List Sample) Fault Refusal :=
  match execNextWith c e { toHardware := h, pcm := [], presented := none, time := 0 } with
  | .next t => .next (t.toHardware, t.pcm)
  | .fault r => .fault r
  | .refused r => .refused r

/-- `execWordWith` at this hardware's values. -/
def execWord (port : Port) (w : Word) (s : State) : Host.Outcome State Fault Refusal := execWordWith Config.hw port w s

/-- `execBlockStartWith` at this hardware's values. -/
def execBlockStart (w : Word) (s : State) : Host.Outcome State Fault Refusal := execBlockStartWith Config.hw w s

/-- `execResetWith` at this hardware's values. -/
def execReset (s : State) : State := execResetWith Config.hw s

/-- `execInputWith` at this hardware's values. -/
def execInput (e : Input) (s : State) : Host.Outcome State Fault Refusal := execInputWith Config.hw e s

/-- `s` with a word of the opcode table as the event on the inputs, on the port its `OP` belongs to (log entry 14). -/
def presentWord (s : State) (nbits w : Nat) : State :=
  s.setPresented (some (.word (portOfWord (tableWord nbits w)) (tableWord nbits w)))

/-- The event a step takes: the one presented, or else the stream's. -/
def nextInput (agents : Nat → Option Input) (s : State) : Option Input :=
  match s.presented with
  | some e => some e
  | none => agents s.time

/-- The inputs after a step has taken its event. -/
def consumed (s : State) : State := (s.setPresented none).setTime (s.time + 1)

/-- The events `es` one after another, up to the first fault. -/
def execInputsWith (c : Config) : List Input → State → Host.Outcome State Fault Refusal
  | [], s => .next s
  | e :: es, s =>
    match execInputWith c e s with
    | .next t => execInputsWith c es t
    | .fault r => .fault r
    | .refused r => .refused r

/-- `execInputsWith` at this hardware's values. -/
def execInputs (es : List Input) (s : State) : Host.Outcome State Fault Refusal := execInputsWith Config.hw es s

end Sys2Proof.Machine
end

