-- ==== Sys2Proof/Machine/Step.lean ====
section
/-! DEFINITION. One step of the machine: the next event of the total order of R39. -/

namespace Sys2Proof.Machine

/-- One step, with R24's arguments: the parameters of R8, and the stream of events that the agents issue. -/
def stepWith (c : Config) (agents : Nat → Option Input) (s : State) : Host.Outcome State Fault Refusal :=
  execNextWith c (nextInput agents s) (consumed s)

/-- One step of this hardware, whatever its agents issue (log entry 1). -/
def step (s : State) : Host.Outcome State Fault Refusal := stepWith Config.hw Config.agents s

/-- `k` steps, up to the first fault. -/
def runWith (c : Config) (agents : Nat → Option Input) : Nat → State → Host.Outcome State Fault Refusal
  | 0, s => .next s
  | k + 1, s =>
    match stepWith c agents s with
    | .next t => runWith c agents k t
    | .fault r => .fault r
    | .refused r => .refused r

/-- `s` with the instruction of the opcode table whose bits are `w` as the very next event. -/
def State.withFetchWord (s : State) (nbits w : Nat) : State := presentWord s nbits w

end Sys2Proof.Machine
end

