-- ==== Sys2Proof/Machine/Ideal.lean ====
section
/-! DEFINITION. The normative sample of 41_synth.md as the spec writes it, over the real numbers: the ideal value `Y` (R77) and the
quantiser `Q` (R84). No step uses this file: statements hold the computed sample against it. -/

namespace Sys2Proof.Machine.Ideal

/-- `t = n / FS`, real-valued seconds (R77, R78). -/
noncomputable def time (c : Config) (n : Nat) : ℝ := (n : ℝ) / (c.fs : ℝ)

/-- `sin(2π·f·t)` (R77), or another `SINFN` at the phase index of R78. -/
noncomputable def tone (c : Config) (f : Int) (n : Nat) : ℝ :=
  match c.sinFn with
  | .real => Real.sin (2 * Real.pi * (f : ℝ) * time c n)
  | .table den nums => ((tableNum nums (f * (n : Int) % (c.fs : Int)).toNat : Int) : ℝ) / (den : ℝ)

/-- The sum of the sines at a list of phase indices (R78). -/
noncomputable def sineSum (fs : Nat) (ps : List Nat) : ℝ :=
  (ps.map fun p : Nat => Real.sin (2 * Real.pi * (p : ℝ) / (fs : ℝ))).sum

/-- `t mod m` for real `t` and `m > 0`: the remainder in `[0, m)`. -/
noncomputable def realMod (t m : ℝ) : ℝ := t - m * (⌊t / m⌋ : ℝ)

open Classical in
/-- The ideal value `Y(mode, (lo, hi), ampl, n)`, row by row the table of R77, its 425, 5, 1, 1 and 1/2 as the parameters
of R8. -/
noncomputable def value (c : Config) (mode : Mode) (lo hi ampl : Int) (n : Nat) : ℝ :=
  match mode with
  | .idle => 0
  | .digitActive => ampl * (tone c lo n + tone c hi n)
  | .dialTone => ampl * tone c c.refFreq n
  | .ringTone => if realMod (time c n) c.ringPeriodS < c.ringOnS then ampl * tone c c.refFreq n else 0
  | .busyTone => if realMod (time c n) c.busyPeriodS < c.busyOnNum / c.busyOnDen then ampl * tone c c.refFreq n else 0

open Classical in
/-- `trunc(y)` of R10: the integer part toward zero. -/
noncomputable def trunc (y : ℝ) : ℤ := if 0 ≤ y then ⌊y⌋ else ⌈y⌉

open Classical in
/-- The rounding of a real number: `trunc` of R10 on this hardware. -/
noncomputable def round (r : Rounding) (y : ℝ) : ℤ :=
  match r with
  | .towardZero => trunc y
  | .down => ⌊y⌋
  | .nearest => trunc (y + (if 0 ≤ y then 1 / 2 else -(1 / 2)))

/-- The quantiser `Q(y) = sat16(trunc(y))` of R84, with `ROUND` for `trunc`. -/
noncomputable def quantise (r : Rounding) (y : ℝ) : ℤ := max (-32768) (min (round r y) 32767)

end Sys2Proof.Machine.Ideal
end

