-- ==== Sys2Proof/Safety.lean ====
section
/-! DEFINITION. What the spec says of whole runs: a run without a fault (R109), the invariants of R25, and the states that a run
from reset can reach, whatever events the agents and the reset input issue (R39). -/

namespace Sys2Proof.Machine

/-- No fault has been recorded since reset: the premise and the goal that R109 gives a claim about a run. -/
abbrev FaultFree (s : State) : Prop := s.fault = .noFault

/-- `FREQ` values of R25 (c): `(0, 0)` or a row of `FTAB`. -/
abbrev legalPair (p : FreqPair) : Prop := p = { lo := 0, hi := 0 } ∨ p ∈ Config.hw.ftab.map (·.2)

/-- R25 (a), (c), (e) and (g) of the Signal State and `LASTSYM`. (b) is the type of `MODE`. -/
structure SignalInv (s : State) : Prop where
  ampl_bound : s.ampl.toNat ≤ 10000
  freq_legal : legalPair s.freq
  lastsym_defined : ∀ y, s.lastsym = some y → (lookup Config.hw y).isSome = true
  digit_pair : s.mode = .digitActive → ∃ y, s.lastsym = some y ∧ lookup Config.hw y = some s.freq

/-- What `SNAP` holds is what R25 allows the registers it copies. -/
structure SnapInv (s : State) : Prop where
  ampl_bound : s.snap.ampl.toNat ≤ 10000
  freq_legal : legalPair s.snap.freq
  digit_pair : s.snap.mode = .digitActive → s.snap.freq ∈ Config.hw.ftab.map (·.2)

/-- A block in progress started at `SCLK`, which its end has not yet written, and has a sample left (R97). -/
abbrev BlockInv (s : State) : Prop :=
  ∀ b, s.block = some b → b.base = s.sclk ∧ b.produced < b.frames ∧ b.frames < 2 ^ 20

/-- How many samples of the block in progress have been produced. -/
def producedSoFar (s : State) : Nat :=
  match s.block with
  | some b => b.produced
  | none => 0

/-- R25 (f) at every event: the samples delivered since reset are `SCLK` and those of the block in progress, modulo
2^64. -/
structure ClockInv (s : State) : Prop where
  block_ok : BlockInv s
  count : BitVec.ofNat 64 s.pcm.length = s.sclk + BitVec.ofNat 64 (producedSoFar s)

/-- The states of the runs from reset: any number of steps, each with whatever stream of events. -/
inductive Reachable : State → Prop where
  | start : Reachable State.reset
  | step {agents : Nat → Option Input} {s t : State} :
    Reachable s → stepWith Config.hw agents s = .next t → Reachable t

end Sys2Proof.Machine
end

