-- ==== Sys2Proof/Certificates/Slice0/Obligations.lean ====
section
/-! DEFINITION. The statements about the model. Each docstring names the rules of spec/ it formalises. -/

namespace Sys2Proof.Statements

open Sys2Proof.Machine

/-- The state after `raise f` as R108 words it: the register is written only when it is 0, and nothing else is. -/
def afterRaise (s : State) (f : FaultCode) : State :=
  { s with fault := if s.fault = .noFault then f else s.fault }

/-- The column "next `MODE`" of the table of R69, for the hardware's `RELD_POLICY`. -/
def modeAfter (i : Instr) (s : State) : Mode :=
  match i with
  | .pressd sym => if (lookup Config.hw sym).isSome then .digitActive else s.mode
  | .reld _ | .relmDial | .relmRing | .relmBusy => .idle
  | .pressmDial => .dialTone
  | .pressmRing => .ringTone
  | .pressmBusy => .busyTone
  | .setamp _ | .bindkey _ _ | .render _ => s.mode
  | .keydn key =>
    match s.keymap.read key.toNat with
    | some sym => if (lookup Config.hw sym).isSome then .digitActive else s.mode
    | none => s.mode
  | .keyup key =>
    match s.keymap.read key.toNat with
    | some sym => if s.lastsym = some sym then .idle else s.mode
    | none => s.mode

/-- The event presented, the step count, and what `SNAP_ATOMIC` false would leave to do: no operation of this hardware writes
them. -/
def sameInputs (s t : State) : Prop := t.presented = s.presented ∧ t.time = s.time ∧ t.outstanding = s.outstanding

/-- The registers that only the audio side writes (R28), and the inputs. -/
def sameAudioSide (s t : State) : Prop :=
  t.sclk = s.sclk ∧ t.snap = s.snap ∧ t.pcm = s.pcm ∧ t.block = s.block ∧ sameInputs s t

/-- The registers that only the control side writes (R28), and the inputs. -/
def sameControlSide (s t : State) : Prop :=
  t.mode = s.mode ∧ t.freq = s.freq ∧ t.ampl = s.ampl ∧ t.lastsym = s.lastsym ∧ t.keymap = s.keymap ∧
    sameInputs s t

/-- The cases (a) to (d) of R52, on the word as a number: `OP = w / 2^28`, `A = w / 2^20 mod 2^8`, `IMM = w mod 2^20`. -/
def illegalWord (port : Port) (w : Word) : Prop :=
  let op := w.toNat / 2 ^ 28
  let a := w.toNat / 2 ^ 20 % 2 ^ 8
  let imm := w.toNat % 2 ^ 20
  (op = 0 ∨ 10 ≤ op) ∨
    (((op = 1 ∨ op = 2 ∨ op = 3 ∨ op = 4) ∧ imm ≠ 0) ∨ ((op = 5 ∨ op = 7 ∨ op = 8 ∨ op = 9) ∧ a ≠ 0)) ∨
    ((op = 3 ∨ op = 4) ∧ a ≠ 2 ∧ a ≠ 3 ∧ a ≠ 4) ∨
    ((port = .control ∧ op = 9) ∨ (port = .audio ∧ 1 ≤ op ∧ op ≤ 8))

/-- The operation word of `RENDER n` on its port. -/
def renderWord (n : BitVec 20) : Input := .word .audio (encode (.render n))

/-- `w` is a press of `sym`: PRESSD of it, or KEYDN of a key bound to it. -/
def pressWord (w : Word) (sym : Symbol) (s : State) : Prop :=
  decode .control w = .ok (.pressd sym) ∨
    ∃ key : KeyCode, decode .control w = .ok (.keydn key) ∧ s.keymap.read key.toNat = some sym

/-- An event that may fall inside a block without ending it early: a control word or the next sample (R101). -/
def insideBlock (e : Input) : Prop := e = .sample ∨ ∃ w, e = .word .control w

/-- `pcm[at]` of `t` is the sample of the time index `idx` for the signal of `s` (R97). -/
def deliversSample (s t : State) (at' idx : Nat) : Prop :=
  t.pcm[at']? = some (BitVec.ofInt 16
    (synth Config.hw s.mode s.freq.lo.toNat s.freq.hi.toNat s.ampl.toNat idx))

/-- Every delivered word, read as a two's-complement number, lies in -20000 .. 20000. -/
def pcmUnsaturated (s : State) : Prop := ∀ w ∈ s.pcm, -20000 ≤ w.toInt ∧ w.toInt ≤ 20000

/-- The rows of R32 in the order of its matrix: symbol code, low Hz, high Hz. -/
def matrixRows : List (Symbol × BitVec 16 × BitVec 16) :=
  [(0x31, 697, 1209), (0x32, 697, 1336), (0x33, 697, 1477), (0x41, 697, 1633),
   (0x34, 770, 1209), (0x35, 770, 1336), (0x36, 770, 1477), (0x42, 770, 1633),
   (0x37, 852, 1209), (0x38, 852, 1336), (0x39, 852, 1477), (0x43, 852, 1633),
   (0x2A, 941, 1209), (0x30, 941, 1336), (0x23, 941, 1477), (0x44, 941, 1633)]

/-- Words of R57 and what they are, on the port of their `OP`. -/
def exampleWords : List (Port × Word × Instr) :=
  [(.control, 0x13500000, .pressd 0x35), (.control, 0x15A00000, .pressd 0x5A), (.control, 0x23500000, .reld 0x35),
   (.control, 0x30200000, .pressmDial), (.control, 0x30300000, .pressmRing), (.control, 0x40400000, .relmBusy),
   (.control, 0x50002710, .setamp 10000), (.control, 0x500FFFFF, .setamp (-1)),
   (.control, 0x5007FFFF, .setamp 524287), (.control, 0x50080000, .setamp (-524288)),
   (.control, 0x63100061, .bindkey 97 0x31), (.control, 0x70000061, .keydn 97), (.control, 0x80000061, .keyup 97),
   (.audio, 0x90000800, .render 2048), (.audio, 0x90000000, .render 0)]

end Sys2Proof.Statements

section

open Sys2Proof Sys2Proof.Machine Sys2Proof.Statements

/-! Digits, modes, amplitude, keys -/

/-- R61: a press of a defined symbol writes the pair, the mode and LASTSYM; a press of any other symbol raises
UnknownSymbol and writes nothing else. -/
def Obligations.PressdStartsTheDigitOrRaises : Prop :=
  (∀ (sym : Symbol) (pair : FreqPair) (s : State), lookup Config.hw sym = some pair →
    exec (.pressd sym) s = .next { s with freq := pair, mode := .digitActive, lastsym := some sym }) ∧
  ∀ (sym : Symbol) (s : State), lookup Config.hw sym = none →
    exec (.pressd sym) s = .next (afterRaise s .unknownSymbol)

/-- R32, R33: the lookup is the table of the sixteen symbols and fails on every other code. -/
def Obligations.LookupIsTheFrequencyTable : Prop :=
  (∀ row ∈ matrixRows, lookup Config.hw row.1 = some { lo := row.2.1, hi := row.2.2 }) ∧
  ∀ sym : Symbol, (∀ row ∈ matrixRows, row.1 ≠ sym) → lookup Config.hw sym = none

/-- R62: RELD clears the mode whatever the symbol; under the policy MATCH the release clears only when the symbol is
LASTSYM. -/
def Obligations.ReldClearsUnderThePolicy : Prop :=
  (∀ (sym : Symbol) (s : State), exec (.reld sym) s = .next { s with mode := .idle }) ∧
  (∀ (sym : Symbol) (s : State), releaseDigit .always sym s = { s with mode := .idle }) ∧
  (∀ (sym : Symbol) (s : State), s.lastsym = some sym → releaseDigit .onMatch sym s = { s with mode := .idle }) ∧
  ∀ (sym : Symbol) (s : State), s.lastsym ≠ some sym → releaseDigit .onMatch sym s = s

/-- R63: PRESSM sets the mode of its kind and nothing else. -/
def Obligations.PressmSetsTheKind : Prop :=
  ∀ s : State,
    exec .pressmDial s = .next { s with mode := .dialTone } ∧
    exec .pressmRing s = .next { s with mode := .ringTone } ∧
    exec .pressmBusy s = .next { s with mode := .busyTone }

/-- R64: RELM sets Idle whatever its kind and whatever the mode, and writes nothing else. -/
def Obligations.RelmAlwaysSetsIdle : Prop :=
  ∀ s : State,
    exec .relmDial s = .next { s with mode := .idle } ∧
    exec .relmRing s = .next { s with mode := .idle } ∧
    exec .relmBusy s = .next { s with mode := .idle }

/-- R65: SETAMP stores its operand clamped to 0 .. 10000 and writes nothing else. -/
def Obligations.SetampStoresTheClampedValue : Prop :=
  ∀ (v : Int) (s : State), ∃ a : BitVec 14,
    exec (.setamp v) s = .next { s with ampl := a } ∧ (a.toNat : Int) = max 0 (min v 10000)

/-- R66: BINDKEY writes one row of KEYMAP, over whatever it held, and nothing else. -/
def Obligations.BindkeyOverwritesOneRow : Prop :=
  ∀ (key : KeyCode) (sym : Symbol) (s : State), ∃ m : KeyMap,
    exec (.bindkey key sym) s = .next { s with keymap := m } ∧ m.read key.toNat = some sym ∧
      ∀ other : Nat, other ≠ key.toNat → m.read other = s.keymap.read other

/-- R67: KEYDN of an unbound key does nothing; of a bound key it is a press of the symbol. -/
def Obligations.KeydnPressesTheBoundSymbol : Prop :=
  (∀ (key : KeyCode) (s : State), s.keymap.read key.toNat = none → exec (.keydn key) s = .next s) ∧
  (∀ (key : KeyCode) (sym : Symbol) (s : State), s.keymap.read key.toNat = some sym →
    exec (.keydn key) s = exec (.pressd sym) s) ∧
  (∀ (key : KeyCode) (sym : Symbol) (pair : FreqPair) (s : State), s.keymap.read key.toNat = some sym →
    lookup Config.hw sym = some pair →
    exec (.keydn key) s = .next { s with freq := pair, mode := .digitActive, lastsym := some sym }) ∧
  ∀ (key : KeyCode) (sym : Symbol) (s : State), s.keymap.read key.toNat = some sym → lookup Config.hw sym = none →
    exec (.keydn key) s = .next (afterRaise s .unknownSymbol)

/-- R68: KEYUP sets Idle when the bound symbol is LASTSYM, from any mode, and otherwise does nothing. -/
def Obligations.KeyupClearsOnlyOnAMatch : Prop :=
  (∀ (key : KeyCode) (sym : Symbol) (s : State), s.keymap.read key.toNat = some sym → s.lastsym = some sym →
    exec (.keyup key) s = .next { s with mode := .idle }) ∧
  ∀ (key : KeyCode) (s : State), (∀ sym, s.keymap.read key.toNat = some sym → s.lastsym ≠ some sym) →
    exec (.keyup key) s = .next s

/-- R69 for this hardware: every control operation completes, from every state, and leaves the mode the table gives. -/
def Obligations.ModeFollowsTheTransitionTable : Prop :=
  ∀ (i : Instr) (s : State), i.port = .control → ∃ t, exec i s = .next t ∧ t.mode = modeAfter i s

/-! RENDER -/

/-- R97: RENDER takes the snapshot, delivers its N samples for the indices SCLK .. SCLK + N - 1 modulo 2^64 after those
already delivered, advances SCLK by N, and writes nothing else. (The log `pcm` is the model's, log entry 2.) -/
def Obligations.RenderDeliversTheBlock : Prop :=
  ∀ (n : BitVec 20) (s : State), s.block = none → ∃ t, exec (.render n) s = .next t ∧
    t.snap = { mode := s.mode, freq := s.freq, ampl := s.ampl } ∧
    t.sclk.toNat = (s.sclk.toNat + n.toNat) % 2 ^ 64 ∧
    t.pcm.length = s.pcm.length + n.toNat ∧
    (∀ j < s.pcm.length, t.pcm[j]? = s.pcm[j]?) ∧
    (∀ i < n.toNat, deliversSample s t (s.pcm.length + i) ((s.sclk.toNat + i) % 2 ^ 64)) ∧
    t.fault = s.fault ∧ t.block = none ∧ sameControlSide s t

/-- The model's stop for what R100 leaves undefined (log entry 7): a RENDER while a block is in progress. -/
def Obligations.RenderDuringABlockStops : Prop :=
  ∀ (n : BitVec 20) (s : State) (b : Block), s.block = some b → exec (.render n) s = .fault .renderOverlap

/-- R99: one block is, state for state, any sequence of blocks with the same number of frames. -/
def Obligations.SplittingABlockChangesNothing : Prop :=
  ∀ (ns : List (BitVec 20)) (s : State), s.block = none → ns ≠ [] → (ns.map BitVec.toNat).sum < 2 ^ 20 →
    execInputs (ns.map renderWord) s = exec (.render (BitVec.ofNat 20 (ns.map BitVec.toNat).sum)) s

/-- R101: a block taken apart into its start and its samples, with any control words between them, leaves the state that
the whole RENDER at its block start leaves when the same control words follow it. -/
def Obligations.BlockEventsRefineTheWholeRender : Prop :=
  ∀ (n : BitVec 20) (es : List Input) (s : State), s.block = none → (∀ e ∈ es, insideBlock e) →
    es.count .sample = n.toNat →
    execInputs (.blockStart (encode (.render n)) :: es) s =
      execInputs (renderWord n :: es.filter (fun e => e ≠ .sample)) s

/-- R76: the samples of a RENDER do not depend on LASTSYM, KEYMAP or FAULT. -/
def Obligations.SamplesDoNotDependOnTheOtherRegisters : Prop :=
  ∀ (n : BitVec 20) (s t : State) (l : Option Symbol) (m : KeyMap) (f : FaultCode), exec (.render n) s = .next t →
    exec (.render n) { s with lastsym := l, keymap := m, fault := f } =
      .next { t with lastsym := l, keymap := m, fault := f }

/-- R125: from Idle, a press and a release before the next block leave the output as it would have been. -/
def Obligations.ShortPressIsNeverHeard : Prop :=
  ∀ (press release : Symbol) (n : BitVec 20) (s : State), s.block = none → s.mode = .idle →
    ∃ t u, execInputs [.word .control (encode (.pressd press)), .word .control (encode (.reld release)), renderWord n] s
        = .next t ∧
      exec (.render n) s = .next u ∧ t.pcm = u.pcm ∧ t.sclk = u.sclk

/-! Whole-machine rules -/

/-- R115, R28: a word on the control port always completes and leaves SCLK, SNAP, the output and a block in progress. -/
def Obligations.ControlPortLeavesTheAudioSide : Prop :=
  ∀ (w : Word) (s : State), ∃ t, execWord .control w s = .next t ∧ sameAudioSide s t

/-- R115, R28: no event of the audio side writes MODE, FREQ, AMPL, LASTSYM or KEYMAP. -/
def Obligations.AudioPortNeverWritesTheSignalState : Prop :=
  ∀ (e : Input) (s t : State), (e = .sample ∨ ∃ w, e = .word .audio w ∨ e = .blockStart w) →
    execInput e s = .next t → sameControlSide s t

/-- R16, R19: FREQ and LASTSYM are written by PRESSD and KEYDN and by nothing else but reset. -/
def Obligations.OnlyPressesWriteFreqAndLastsym : Prop :=
  ∀ (e : Input) (s t : State), execInput e s = .next t → (t.freq ≠ s.freq ∨ t.lastsym ≠ s.lastsym) →
    e = .reset ∨ ∃ w, e = .word .control w ∧
      ((∃ sym, decode .control w = .ok (.pressd sym)) ∨ ∃ key, decode .control w = .ok (.keydn key))

/-- R17, R22: AMPL is written by SETAMP only, and KEYMAP by BINDKEY only, apart from reset. -/
def Obligations.OnlySetampWritesAmplAndOnlyBindkeyWritesKeymap : Prop :=
  ∀ (e : Input) (s t : State), execInput e s = .next t →
    (t.ampl ≠ s.ampl → e = .reset ∨ ∃ w v, e = .word .control w ∧ decode .control w = .ok (.setamp v)) ∧
    (t.keymap ≠ s.keymap →
      e = .reset ∨ ∃ w key sym, e = .word .control w ∧ decode .control w = .ok (.bindkey key sym))

/-! Faults -/

/-- R106 to R108: the three places a fault is raised, what each leaves, and that no legal operation but PRESSD and KEYDN
writes FAULT. -/
def Obligations.EveryFaultIsRaisedAsTheRuleSays : Prop :=
  (∀ (port : Port) (w : Word) (s : State), illegalWord port w →
    execWord port w s = .next (afterRaise s .illegalCommand)) ∧
  (∀ (sym : Symbol) (s : State), lookup Config.hw sym = none →
    exec (.pressd sym) s = .next (afterRaise s .unknownSymbol)) ∧
  (∀ (key : KeyCode) (sym : Symbol) (s : State), s.keymap.read key.toNat = some sym → lookup Config.hw sym = none →
    exec (.keydn key) s = .next (afterRaise s .unknownSymbol)) ∧
  ∀ (i : Instr) (s t : State), exec i s = .next t → t.fault ≠ s.fault →
    (∃ sym, i = .pressd sym) ∨ ∃ key, i = .keydn key

/-- R52: a word is refused by the decoder exactly when it is illegal on its port, and then it raises IllegalCommand and
changes no other state; on the audio port it delivers no sample. -/
def Obligations.DecoderRefusesExactlyTheIllegalWords : Prop :=
  (∀ (port : Port) (w : Word), (∃ r, decode port w = .error r) ↔ illegalWord port w) ∧
  ∀ (port : Port) (w : Word) (s : State), illegalWord port w →
    execWord port w s = .next (afterRaise s .illegalCommand)

/-- R20, R108: the first fault is kept by every event but a reset. -/
def Obligations.FirstFaultIsKeptUntilReset : Prop :=
  ∀ (e : Input) (s t : State), e ≠ .reset → execInput e s = .next t → s.fault ≠ .noFault → t.fault = s.fault

/-- R108: whatever word sets FAULT writes no other state. -/
def Obligations.FaultingOperationWritesNothingElse : Prop :=
  ∀ (port : Port) (w : Word) (s t : State), execWord port w s = .next t → t.fault ≠ s.fault →
    s.fault = .noFault ∧ t = { s with fault := t.fault }

/-- R109, R20: no event reads FAULT: with any other value in it every event does the same to the rest of the state. -/
def Obligations.NoEventReadsFault : Prop :=
  ∀ (e : Input) (s t : State) (f : FaultCode), execInput e s = .next t →
    ∃ g, execInput e { s with fault := f } = .next { t with fault := g }

/-! Encoding -/

/-- R51, R53: every operation that fits its word decodes from it, on its port. -/
def Obligations.DecodeOfEncodeIsTheOperation : Prop :=
  ∀ i : Instr, i.wellFormed = true → decode i.port (encode i) = .ok i

/-- R51: a word that decodes is the one encoding of its operation, which fits it and belongs to the port. -/
def Obligations.EncodeOfDecodeIsTheWord : Prop :=
  ∀ (port : Port) (w : Word) (i : Instr), decode port w = .ok i →
    encode i = w ∧ i.wellFormed = true ∧ i.port = port

/-- R55: the thirteen rows of match and mask, with the free fields each row names. -/
def Obligations.DecodingFollowsMatchAndMask : Prop :=
  ∀ w : Word,
    (w &&& 0xF00FFFFF = 0x10000000 ↔ decode .control w = .ok (.pressd (w.extractLsb' 20 8))) ∧
    (w &&& 0xF00FFFFF = 0x20000000 ↔ decode .control w = .ok (.reld (w.extractLsb' 20 8))) ∧
    (w &&& 0xFFFFFFFF = 0x30200000 ↔ decode .control w = .ok .pressmDial) ∧
    (w &&& 0xFFFFFFFF = 0x30300000 ↔ decode .control w = .ok .pressmRing) ∧
    (w &&& 0xFFFFFFFF = 0x30400000 ↔ decode .control w = .ok .pressmBusy) ∧
    (w &&& 0xFFFFFFFF = 0x40200000 ↔ decode .control w = .ok .relmDial) ∧
    (w &&& 0xFFFFFFFF = 0x40300000 ↔ decode .control w = .ok .relmRing) ∧
    (w &&& 0xFFFFFFFF = 0x40400000 ↔ decode .control w = .ok .relmBusy) ∧
    (w &&& 0xFFF00000 = 0x50000000 ↔ decode .control w = .ok (.setamp (w.extractLsb' 0 20).toInt)) ∧
    (w &&& 0xF0000000 = 0x60000000 ↔
      decode .control w = .ok (.bindkey (w.extractLsb' 0 20) (w.extractLsb' 20 8))) ∧
    (w &&& 0xFFF00000 = 0x70000000 ↔ decode .control w = .ok (.keydn (w.extractLsb' 0 20))) ∧
    (w &&& 0xFFF00000 = 0x80000000 ↔ decode .control w = .ok (.keyup (w.extractLsb' 0 20))) ∧
    (w &&& 0xFFF00000 = 0x90000000 ↔ decode .audio w = .ok (.render (w.extractLsb' 0 20)))

/-- R57: the words of the encoding examples decode to the operations they are listed for. -/
def Obligations.ExampleWordsDecode : Prop :=
  ∀ row ∈ exampleWords, decode row.1 row.2.1 = .ok row.2.2

/-! Steps, reset, invariants -/

/-- R47, R53: whatever stream the agents issue, when the next event is a legal word on a port, the step is its operation on
the state that has taken that event; and `step` is the step with this hardware's parameters and the free
stream of log entry 1. -/
def Obligations.StepRunsTheDecodedOperation : Prop :=
  (∀ (agents : Nat → Option Input) (s : State) (port : Port) (w : Word) (i : Instr),
    nextInput agents s = some (.word port w) → decode port w = .ok i →
    stepWith Config.hw agents s = exec i { s with presented := none, time := s.time + 1 }) ∧
  ∀ s : State, step s = stepWith Config.hw Config.agents s

/-- R118: when no event comes and no block is in progress the hardware holds its state. -/
def Obligations.WithNoEventTheStateIsHeld : Prop :=
  ∀ (agents : Nat → Option Input) (s : State), nextInput agents s = none → s.block = none →
    stepWith Config.hw agents s = .next { s with presented := none, time := s.time + 1 }

/-- R103: a block in progress runs to its last sample, whatever control words come and when nothing comes any more, in one
step a word and one step a sample. (That the words come first is this statement's; the log `pcm` is log entry 2's.) -/
def Obligations.BlockRunsToItsLastSample : Prop :=
  ∀ (agents : Nat → Option Input) (words : Nat) (s : State) (b : Block), s.block = some b → b.produced < b.frames →
    s.presented = none → (∀ i < words, ∃ w, agents (s.time + i) = some (.word .control w)) →
    (∀ i ≥ words, agents (s.time + i) = none) →
    ∃ t : State, runWith Config.hw agents (words + (b.frames - b.produced)) s = .next t ∧
      t.block = none ∧ t.sclk = b.base + BitVec.ofNat 64 b.frames ∧
      t.pcm.length = s.pcm.length + (b.frames - b.produced)

/-- R24: for all parameters and streams, a step is the hardware's own step, of which the parameters and the event are
arguments: the later events, the count of steps and the samples already delivered play no part in it. -/
def Obligations.StepIsTheHardwareStepOfTheNextEvent : Prop :=
  ∀ (c : Config) (agents : Nat → Option Input) (s : State),
    stepWith c agents s =
      match hardwareStep c (nextInput agents s) s.toHardware with
      | .next (h, out) =>
        .next { toHardware := h, pcm := if nextInput agents s = some .reset then [] else s.pcm ++ out, presented := none,
                time := s.time + 1 }
      | .fault r => .fault r
      | .refused r => .refused r

/-- The word of an opcode-table row, presented as the next event, is run by the next step (log entry 14). -/
def Obligations.PresentedTableWordIsRun : Prop :=
  ∀ (s : State) (nbits w : Nat) (i : Instr), decodeTableWord nbits w = some i →
    step (s.withFetchWord nbits w) = exec i { s with presented := none, time := s.time + 1 }

/-- R121, R122, R26: a reset, at any point and inside a block too, gives every register its reset value and ends the block.
That the stream goes on behind it is log entry 12's. -/
def Obligations.ResetRestoresEveryRegister : Prop :=
  ∀ (agents : Nat → Option Input) (s : State), nextInput agents s = some .reset →
    ∃ t, stepWith Config.hw agents s = .next t ∧
    t.mode = .idle ∧ t.freq = { lo := 0, hi := 0 } ∧ t.ampl = 5000 ∧ t.sclk = 0 ∧ t.lastsym = none ∧
    t.fault = .noFault ∧ (∀ key, t.keymap.read key = none) ∧ t.block = none ∧ t.outstanding = .nothing ∧
    t.presented = none ∧ t.time = s.time + 1

/-- R26: the values of `State.reset`. -/
def Obligations.ResetStateHoldsTheResetValues : Prop :=
  State.reset.mode = .idle ∧ State.reset.freq = { lo := 0, hi := 0 } ∧ State.reset.ampl = 5000 ∧
    State.reset.sclk = 0 ∧ State.reset.lastsym = none ∧ State.reset.fault = .noFault ∧
    (∀ key, State.reset.keymap.read key = none) ∧ State.reset.block = none

/-- The invariants below hold right after reset, whatever event is presented and whatever the step count. SNAP's part rests
on log entry 4, KEYMAP's form on log entry 19, and what is outstanding on log entry 25. -/
def Obligations.InvariantsHoldAtReset : Prop :=
  ∀ (e : Option Input) (n : Nat), let s := (State.reset.setPresented e).setTime n
    SignalInv s ∧ SnapInv s ∧ s.keymap.wf ∧ ClockInv s ∧ s.outstanding = .nothing

/-- R25 (a), (c), (e), (g): every step keeps the invariant of the Signal State and LASTSYM. -/
def Obligations.SignalInvariantIsKept : Prop :=
  ∀ s t : State, SignalInv s → step s = .next t → SignalInv t

/-- The snapshot holds legal values after every step from legal values (R21, R25). -/
def Obligations.SnapshotInvariantIsKept : Prop :=
  ∀ s t : State, SignalInv s → SnapInv s → step s = .next t → SnapInv t

/-- Every step keeps KEYMAP in canonical form, with keys of 20 bits (R36; the list is the model's form of the table). -/
def Obligations.KeymapStaysCanonical : Prop :=
  ∀ s t : State, s.keymap.wf → step s = .next t → t.keymap.wf

/-- R25 (f), R18: every step keeps the count: the samples delivered since reset are SCLK and the samples of the block in
progress, modulo 2^64. -/
def Obligations.SampleClockCountsTheSamples : Prop :=
  ∀ s t : State, ClockInv s → step s = .next t → ClockInv t

/-- R42, R39: on this hardware, where SNAP_ATOMIC is true, no event leaves a field access outstanding (the field is the
model's, log entry 15). -/
def Obligations.NothingIsEverOutstanding : Prop :=
  ∀ s t : State, s.outstanding = .nothing → step s = .next t → t.outstanding = .nothing

/-- R25 (a), (c), (e), (f), (g): every state of every run from reset, under any events, meets the invariants. What is said
of SNAP rests on its value at reset, the model's DESIGN CHOICE of log entry 4 (R26 leaves it unspecified); KEYMAP's
canonical form is the model's own, log entry 19's; that nothing is outstanding is said of the field of log entry 15, whose
value at reset is log entry 25's. -/
def Obligations.ReachableStatesMeetTheInvariants : Prop :=
  ∀ s : State, Reachable s → SignalInv s ∧ SnapInv s ∧ s.keymap.wf ∧ ClockInv s ∧ s.outstanding = .nothing

/-- R85: no sample the hardware delivers in any run leaves -20000 .. 20000, so the saturation never acts. -/
def Obligations.NoDeliveredSampleSaturates : Prop :=
  ∀ s : State, Reachable s → pcmUnsaturated s

/-- R85: every step from a state that meets the invariants and has delivered no sample outside -20000 .. 20000 delivers none
outside it. -/
def Obligations.UnsaturatedOutputIsKept : Prop :=
  ∀ s t : State, SignalInv s → SnapInv s → pcmUnsaturated s → step s = .next t → pcmUnsaturated t

/-! The synthesizer -/

/-- R79 and the two angles of 18 and 54 degrees: the tables of exact sines hold the real sine, and a sum that the tables and
the symmetries give as a rational number is that number. -/
def Obligations.ExactSinesAreTheRealSine : Prop :=
  (∀ (fs p : Nat) (a b : Int), 0 < fs → p < fs → exactSine fs p = some (a, b) →
    Real.sin (2 * Real.pi * (p : ℝ) / (fs : ℝ)) = ((a : ℝ) + (b : ℝ) * Real.sqrt 5) / 4) ∧
  ∀ (fs : Nat) (ps : List Nat) (a : Int), 0 < fs → (∀ p ∈ ps, p < fs) → quarters fs ps = some a →
    Ideal.sineSum fs ps = (a : ℝ) / 4

/-- R87: at every precision of 64 bits or more the computed sine is the real sine within its stated error. -/
def Obligations.FixedSineIsWithinItsError : Prop :=
  ∀ w fs p : Nat, 64 ≤ w → 0 < fs → p < fs →
    |((fixedSine w fs p : Int) : ℝ) - 2 ^ w * Real.sin (2 * Real.pi * (p : ℝ) / (fs : ℝ))| ≤ (sineError w : ℝ)

/-- R76, R77, R84, R86, R87: the computed sample is the quantised ideal value over the real numbers, for every sample rate,
cadence, SINFN, ROUND, mode, pair of integer frequencies, integer amplitude and index; and this hardware's SINFN and
ROUND are the real sine and the truncation toward zero. -/
def Obligations.SampleIsTheQuantisedIdealValue : Prop :=
  (∀ (c : Config) (mode : Mode) (lo hi ampl : Int) (n : Nat), 0 < c.fs → 0 < c.ringPeriodS → 0 < c.busyPeriodS →
    0 < c.busyOnDen → synth c mode lo hi ampl n = Ideal.quantise c.round (Ideal.value c mode lo hi ampl n)) ∧
  Config.hw.sinFn = .real ∧ Config.hw.round = .towardZero

/-- The last precision of `settle` tells an ideal value from every half or whole integer it is not: twice the whole width of
the enclosure is less than the distance of twice the ideal value from an integer (log entry 6). -/
def Obligations.LastPrecisionSeparatesIntegers : Prop :=
  ∀ (fs w : Nat) (ps : List Nat) (ampl k : Int), 0 < fs → 64 ≤ w → separationBits fs ps ampl ≤ w →
    |k| ≤ 2 * (ps.length * |ampl| + 1) → 2 * ((ampl : ℝ) * Ideal.sineSum fs ps) ≠ (k : ℝ) →
    4 * ((ps.length : ℝ) * |(ampl : ℝ)| * (sineError w : ℝ)) < 2 ^ w * |2 * ((ampl : ℝ) * Ideal.sineSum fs ps) - (k : ℝ)|

/-- R80, R82, R83: at every amplitude the register can hold, every sample of silence and of the dial, ring and busy
tones is the quantised ideal value. -/
def Obligations.ReferenceTonesAreExact : Prop :=
  ∀ (mode : Mode) (lo hi : Int) (a : BitVec 14) (n : Nat), mode ≠ .digitActive →
    synth Config.hw mode lo hi a.toNat n = Ideal.quantise .towardZero (Ideal.value Config.hw mode lo hi a.toNat n)

/-- R90: the period of one second, or of the cadence, and on this hardware 240000 samples for every mode, 48000 outside
RingTone and 1920 for the dial tone. -/
def Obligations.SynthIsPeriodic : Prop :=
  (∀ (c : Config) (mode : Mode) (lo hi ampl : Int) (n : Nat), 0 < c.fs →
    synth c mode lo hi ampl (n + c.ringPeriodS * c.busyPeriodS * c.fs) = synth c mode lo hi ampl n) ∧
  (∀ (c : Config) (mode : Mode) (lo hi ampl : Int) (n : Nat), 0 < c.fs → mode ≠ .ringTone → mode ≠ .busyTone →
    synth c mode lo hi ampl (n + c.fs) = synth c mode lo hi ampl n) ∧
  (∀ (mode : Mode) (lo hi ampl : Int) (n : Nat),
    synth Config.hw mode lo hi ampl (n + 240000) = synth Config.hw mode lo hi ampl n) ∧
  (∀ (mode : Mode) (lo hi ampl : Int) (n : Nat), mode ≠ .ringTone →
    synth Config.hw mode lo hi ampl (n + 48000) = synth Config.hw mode lo hi ampl n) ∧
  ∀ (lo hi ampl : Int) (n : Nat),
    synth Config.hw .dialTone lo hi ampl (n + 1920) = synth Config.hw .dialTone lo hi ampl n

/-- R91 (a) to (d): where the sample is 0. -/
def Obligations.SilentSamples : Prop :=
  (∀ (c : Config) (lo hi ampl : Int) (n : Nat), synth c .idle lo hi ampl n = 0) ∧
  (∀ (c : Config) (mode : Mode) (lo hi : Int) (n : Nat), synth c mode lo hi 0 n = 0) ∧
  (∀ (c : Config) (mode : Mode) (lo hi ampl : Int) (k : Nat), 0 < c.fs → c.sinFn = .real →
    synth c mode lo hi ampl (k * c.fs) = 0) ∧
  (∀ (lo hi ampl : Int) (n : Nat), 48000 ≤ n % 240000 → synth Config.hw .ringTone lo hi ampl n = 0) ∧
  ∀ (lo hi ampl : Int) (n : Nat), 24000 ≤ n % 48000 → synth Config.hw .busyTone lo hi ampl n = 0

/-- R91 (e): the bounds of a sample. -/
def Obligations.SampleBounds : Prop :=
  (∀ (c : Config) (mode : Mode) (lo hi ampl : Int) (n : Nat), 0 < c.fs → c.sinFn = .real → mode ≠ .digitActive →
    |synth c mode lo hi ampl n| ≤ |ampl|) ∧
  (∀ (c : Config) (lo hi ampl : Int) (n : Nat), 0 < c.fs → c.sinFn = .real →
    |synth c .digitActive lo hi ampl n| ≤ 2 * |ampl|) ∧
  ∀ (c : Config) (mode : Mode) (lo hi ampl : Int) (n : Nat),
    -32768 ≤ synth c mode lo hi ampl n ∧ synth c mode lo hi ampl n ≤ 32767

/-- R91 (f), R86: a sample never has the sign opposite to its ideal value's, and before saturation a negative amplitude
inverts it. -/
def Obligations.SampleNeverCrossesZero : Prop :=
  (∀ (c : Config) (mode : Mode) (lo hi ampl : Int) (n : Nat), 0 < c.fs → 0 < c.ringPeriodS → 0 < c.busyPeriodS →
    0 < c.busyOnDen →
    (0 ≤ Ideal.value c mode lo hi ampl n → 0 ≤ synth c mode lo hi ampl n) ∧
    (Ideal.value c mode lo hi ampl n ≤ 0 → synth c mode lo hi ampl n ≤ 0)) ∧
  ∀ (fs : Nat) (ps : List Nat) (ampl : Int), roundedReal .towardZero fs ps (-ampl) = -roundedReal .towardZero fs ps ampl

/-! The platform's options -/

/-- R37: a stored sample's two bytes, low byte at the lower address by default. -/
def Obligations.StoredSampleBytes : Prop :=
  Config.hw.pcmByteOrder = .littleEndian ∧
  ∀ w : Sample, ∃ low high : BitVec 8, low.toNat + 256 * high.toNat = w.toNat ∧
    sampleBytes .littleEndian w = [low, high] ∧ sampleBytes .bigEndian w = [high, low]

/-- R42, R39: with SNAP_ATOMIC false, a press whose two writes are adjacent, and a block start whose three reads are adjacent,
in any order, leave what the whole events leave with SNAP_ATOMIC true and the other parameters the same. -/
def Obligations.SplitEventsAgreeWhenAdjacent : Prop :=
  ∀ c : Config, c.snapAtomic = false →
    (∀ (w : Word) (sym : Symbol) (pair : FreqPair) (s : State), pressWord w sym s →
      s.outstanding.modeWrite = false → lookup c sym = some pair →
      ∃ t, execInputsWith { c with snapAtomic := true } [.word .control w] s = .next t ∧
        execInputsWith c [.word .control w, .modeWrite] s = .next t) ∧
    ∀ (n : BitVec 20) (s : State) (fs : List SignalField), s.block = none → s.outstanding.reads = [] →
      fs.Perm [.mode, .freq, .ampl] →
      ∃ t, execInputsWith { c with snapAtomic := true } [.blockStart (encode (.render n))] s = .next t ∧
        execInputsWith c (.blockStart (encode (.render n)) :: fs.map .read) s = .next t

/-- R42 (a): with SNAP_ATOMIC false, between the two writes of a press of a defined symbol the pair and LASTSYM are written
and the mode is not. That a control word there stops with `splitOrder` is no rule but the model's reading, log entry 15's
(DEDUCED): R42 (c) lets control operations fall between the accesses, and the model takes CTRL to finish its own press
before it issues the next word. -/
def Obligations.SplitPressIsCaughtBetweenItsWrites : Prop :=
  ∀ (c : Config) (w : Word) (sym : Symbol) (pair : FreqPair) (s : State), c.snapAtomic = false → pressWord w sym s →
    s.outstanding.modeWrite = false → lookup c sym = some pair →
    ∃ t, execInputWith c (.word .control w) s = .next t ∧ t.mode = s.mode ∧ t.freq = pair ∧ t.lastsym = some sym ∧
      (∀ later, execInputWith c (.word .control later) t = .fault .splitOrder) ∧
      execInputWith c .modeWrite t = .next { t with mode := .digitActive, outstanding := s.outstanding }

end
end

