-- ==== Sys2Proof/Laws/Decode.lean ====
section
/-! SUPPORT. The fields of a packed word, and what a successful decoding says of each field. -/

namespace Sys2Proof

/-- A packed word as a number: the fields side by side (R48). -/
theorem packWord_toNat (op : BitVec 4) (a : BitVec 8) (imm : BitVec 20) :
    (packWord op a imm).toNat = op.toNat * 2 ^ 28 + a.toNat * 2 ^ 20 + imm.toNat := by
  rw [packWord, BitVec.toNat_append, BitVec.toNat_append, ← Nat.shiftLeft_add_eq_or_of_lt imm.isLt,
    ← Nat.shiftLeft_add_eq_or_of_lt a.isLt, Nat.shiftLeft_eq, Nat.shiftLeft_eq]
  omega

theorem opField_toNat (w : Word) : (opField w).toNat = w.toNat / 2 ^ 28 := by
  have := w.isLt
  simp only [opField, BitVec.extractLsb'_toNat, Nat.shiftRight_eq_div_pow]
  omega

theorem aField_toNat (w : Word) : (aField w).toNat = w.toNat / 2 ^ 20 % 2 ^ 8 := by
  simp only [aField, BitVec.extractLsb'_toNat, Nat.shiftRight_eq_div_pow]

theorem immField_toNat (w : Word) : (immField w).toNat = w.toNat % 2 ^ 20 := by
  simp [immField]

@[simp] theorem opField_packWord (op : BitVec 4) (a : BitVec 8) (imm : BitVec 20) : opField (packWord op a imm) = op := by
  apply BitVec.eq_of_toNat_eq
  have := a.isLt; have := imm.isLt
  rw [opField_toNat, packWord_toNat]
  omega

@[simp] theorem aField_packWord (op : BitVec 4) (a : BitVec 8) (imm : BitVec 20) : aField (packWord op a imm) = a := by
  apply BitVec.eq_of_toNat_eq
  have := a.isLt; have := imm.isLt
  rw [aField_toNat, packWord_toNat]
  omega

@[simp] theorem immField_packWord (op : BitVec 4) (a : BitVec 8) (imm : BitVec 20) :
    immField (packWord op a imm) = imm := by
  apply BitVec.eq_of_toNat_eq
  have := imm.isLt
  rw [immField_toNat, packWord_toNat]
  omega

/-- A word is its three fields. -/
theorem packWord_fields (w : Word) : packWord (opField w) (aField w) (immField w) = w := by
  apply BitVec.eq_of_toNat_eq
  rw [packWord_toNat, opField_toNat, aField_toNat, immField_toNat]
  omega

/-- A must-be-zero field lets an operation through exactly when it is zero. -/
theorem needZero_ok_iff {n : Nat} (f : BitVec n) (i j : Instr) : needZero f i = .ok j ↔ f = 0 ∧ i = j := by
  unfold needZero
  split <;> simp_all

@[simp] theorem needZero_zero {n : Nat} (i : Instr) : needZero 0#n i = .ok i := if_pos rfl

/-- The signed operand survives its 20-bit field when it is in range. -/
theorem ampvOf_ofInt {v : Int} (hlo : -524288 ≤ v) (hhi : v ≤ 524287) : ampvOf (BitVec.ofInt 20 v) = v := by
  rw [ampvOf, BitVec.toInt_ofInt]
  simp only [Int.bmod]
  omega

end Sys2Proof
end

