-- ==== Sys2Proof/Laws/State.lean ====
section
/-! SUPPORT. One lemma for each field and each update of State, all by rfl, so that no later proof unfolds an update. -/

namespace Sys2Proof.Machine.State

@[simp] theorem setMode_mode (s : State) (m : Mode) : (s.setMode m).mode = m := rfl
@[simp] theorem setMode_freq (s : State) (m : Mode) : (s.setMode m).freq = s.freq := rfl
@[simp] theorem setMode_ampl (s : State) (m : Mode) : (s.setMode m).ampl = s.ampl := rfl
@[simp] theorem setMode_sclk (s : State) (m : Mode) : (s.setMode m).sclk = s.sclk := rfl
@[simp] theorem setMode_lastsym (s : State) (m : Mode) : (s.setMode m).lastsym = s.lastsym := rfl
@[simp] theorem setMode_fault (s : State) (m : Mode) : (s.setMode m).fault = s.fault := rfl
@[simp] theorem setMode_snap (s : State) (m : Mode) : (s.setMode m).snap = s.snap := rfl
@[simp] theorem setMode_keymap (s : State) (m : Mode) : (s.setMode m).keymap = s.keymap := rfl
@[simp] theorem setMode_block (s : State) (m : Mode) : (s.setMode m).block = s.block := rfl
@[simp] theorem setMode_outstanding (s : State) (m : Mode) : (s.setMode m).outstanding = s.outstanding := rfl
@[simp] theorem setMode_pcm (s : State) (m : Mode) : (s.setMode m).pcm = s.pcm := rfl
@[simp] theorem setMode_presented (s : State) (m : Mode) : (s.setMode m).presented = s.presented := rfl
@[simp] theorem setMode_time (s : State) (m : Mode) : (s.setMode m).time = s.time := rfl

@[simp] theorem setFreq_mode (s : State) (p : FreqPair) : (s.setFreq p).mode = s.mode := rfl
@[simp] theorem setFreq_freq (s : State) (p : FreqPair) : (s.setFreq p).freq = p := rfl
@[simp] theorem setFreq_ampl (s : State) (p : FreqPair) : (s.setFreq p).ampl = s.ampl := rfl
@[simp] theorem setFreq_sclk (s : State) (p : FreqPair) : (s.setFreq p).sclk = s.sclk := rfl
@[simp] theorem setFreq_lastsym (s : State) (p : FreqPair) : (s.setFreq p).lastsym = s.lastsym := rfl
@[simp] theorem setFreq_fault (s : State) (p : FreqPair) : (s.setFreq p).fault = s.fault := rfl
@[simp] theorem setFreq_snap (s : State) (p : FreqPair) : (s.setFreq p).snap = s.snap := rfl
@[simp] theorem setFreq_keymap (s : State) (p : FreqPair) : (s.setFreq p).keymap = s.keymap := rfl
@[simp] theorem setFreq_block (s : State) (p : FreqPair) : (s.setFreq p).block = s.block := rfl
@[simp] theorem setFreq_outstanding (s : State) (p : FreqPair) : (s.setFreq p).outstanding = s.outstanding := rfl
@[simp] theorem setFreq_pcm (s : State) (p : FreqPair) : (s.setFreq p).pcm = s.pcm := rfl
@[simp] theorem setFreq_presented (s : State) (p : FreqPair) : (s.setFreq p).presented = s.presented := rfl
@[simp] theorem setFreq_time (s : State) (p : FreqPair) : (s.setFreq p).time = s.time := rfl

@[simp] theorem setAmpl_mode (s : State) (a : BitVec 14) : (s.setAmpl a).mode = s.mode := rfl
@[simp] theorem setAmpl_freq (s : State) (a : BitVec 14) : (s.setAmpl a).freq = s.freq := rfl
@[simp] theorem setAmpl_ampl (s : State) (a : BitVec 14) : (s.setAmpl a).ampl = a := rfl
@[simp] theorem setAmpl_sclk (s : State) (a : BitVec 14) : (s.setAmpl a).sclk = s.sclk := rfl
@[simp] theorem setAmpl_lastsym (s : State) (a : BitVec 14) : (s.setAmpl a).lastsym = s.lastsym := rfl
@[simp] theorem setAmpl_fault (s : State) (a : BitVec 14) : (s.setAmpl a).fault = s.fault := rfl
@[simp] theorem setAmpl_snap (s : State) (a : BitVec 14) : (s.setAmpl a).snap = s.snap := rfl
@[simp] theorem setAmpl_keymap (s : State) (a : BitVec 14) : (s.setAmpl a).keymap = s.keymap := rfl
@[simp] theorem setAmpl_block (s : State) (a : BitVec 14) : (s.setAmpl a).block = s.block := rfl
@[simp] theorem setAmpl_outstanding (s : State) (a : BitVec 14) : (s.setAmpl a).outstanding = s.outstanding := rfl
@[simp] theorem setAmpl_pcm (s : State) (a : BitVec 14) : (s.setAmpl a).pcm = s.pcm := rfl
@[simp] theorem setAmpl_presented (s : State) (a : BitVec 14) : (s.setAmpl a).presented = s.presented := rfl
@[simp] theorem setAmpl_time (s : State) (a : BitVec 14) : (s.setAmpl a).time = s.time := rfl

@[simp] theorem setSclk_mode (s : State) (n : BitVec 64) : (s.setSclk n).mode = s.mode := rfl
@[simp] theorem setSclk_freq (s : State) (n : BitVec 64) : (s.setSclk n).freq = s.freq := rfl
@[simp] theorem setSclk_ampl (s : State) (n : BitVec 64) : (s.setSclk n).ampl = s.ampl := rfl
@[simp] theorem setSclk_sclk (s : State) (n : BitVec 64) : (s.setSclk n).sclk = n := rfl
@[simp] theorem setSclk_lastsym (s : State) (n : BitVec 64) : (s.setSclk n).lastsym = s.lastsym := rfl
@[simp] theorem setSclk_fault (s : State) (n : BitVec 64) : (s.setSclk n).fault = s.fault := rfl
@[simp] theorem setSclk_snap (s : State) (n : BitVec 64) : (s.setSclk n).snap = s.snap := rfl
@[simp] theorem setSclk_keymap (s : State) (n : BitVec 64) : (s.setSclk n).keymap = s.keymap := rfl
@[simp] theorem setSclk_block (s : State) (n : BitVec 64) : (s.setSclk n).block = s.block := rfl
@[simp] theorem setSclk_outstanding (s : State) (n : BitVec 64) : (s.setSclk n).outstanding = s.outstanding := rfl
@[simp] theorem setSclk_pcm (s : State) (n : BitVec 64) : (s.setSclk n).pcm = s.pcm := rfl
@[simp] theorem setSclk_presented (s : State) (n : BitVec 64) : (s.setSclk n).presented = s.presented := rfl
@[simp] theorem setSclk_time (s : State) (n : BitVec 64) : (s.setSclk n).time = s.time := rfl

@[simp] theorem setLastsym_mode (s : State) (l : Option Symbol) : (s.setLastsym l).mode = s.mode := rfl
@[simp] theorem setLastsym_freq (s : State) (l : Option Symbol) : (s.setLastsym l).freq = s.freq := rfl
@[simp] theorem setLastsym_ampl (s : State) (l : Option Symbol) : (s.setLastsym l).ampl = s.ampl := rfl
@[simp] theorem setLastsym_sclk (s : State) (l : Option Symbol) : (s.setLastsym l).sclk = s.sclk := rfl
@[simp] theorem setLastsym_lastsym (s : State) (l : Option Symbol) : (s.setLastsym l).lastsym = l := rfl
@[simp] theorem setLastsym_fault (s : State) (l : Option Symbol) : (s.setLastsym l).fault = s.fault := rfl
@[simp] theorem setLastsym_snap (s : State) (l : Option Symbol) : (s.setLastsym l).snap = s.snap := rfl
@[simp] theorem setLastsym_keymap (s : State) (l : Option Symbol) : (s.setLastsym l).keymap = s.keymap := rfl
@[simp] theorem setLastsym_block (s : State) (l : Option Symbol) : (s.setLastsym l).block = s.block := rfl
@[simp] theorem setLastsym_outstanding (s : State) (l : Option Symbol) : (s.setLastsym l).outstanding = s.outstanding := rfl
@[simp] theorem setLastsym_pcm (s : State) (l : Option Symbol) : (s.setLastsym l).pcm = s.pcm := rfl
@[simp] theorem setLastsym_presented (s : State) (l : Option Symbol) : (s.setLastsym l).presented = s.presented := rfl
@[simp] theorem setLastsym_time (s : State) (l : Option Symbol) : (s.setLastsym l).time = s.time := rfl

@[simp] theorem setFault_mode (s : State) (f : FaultCode) : (s.setFault f).mode = s.mode := rfl
@[simp] theorem setFault_freq (s : State) (f : FaultCode) : (s.setFault f).freq = s.freq := rfl
@[simp] theorem setFault_ampl (s : State) (f : FaultCode) : (s.setFault f).ampl = s.ampl := rfl
@[simp] theorem setFault_sclk (s : State) (f : FaultCode) : (s.setFault f).sclk = s.sclk := rfl
@[simp] theorem setFault_lastsym (s : State) (f : FaultCode) : (s.setFault f).lastsym = s.lastsym := rfl
@[simp] theorem setFault_fault (s : State) (f : FaultCode) : (s.setFault f).fault = f := rfl
@[simp] theorem setFault_snap (s : State) (f : FaultCode) : (s.setFault f).snap = s.snap := rfl
@[simp] theorem setFault_keymap (s : State) (f : FaultCode) : (s.setFault f).keymap = s.keymap := rfl
@[simp] theorem setFault_block (s : State) (f : FaultCode) : (s.setFault f).block = s.block := rfl
@[simp] theorem setFault_outstanding (s : State) (f : FaultCode) : (s.setFault f).outstanding = s.outstanding := rfl
@[simp] theorem setFault_pcm (s : State) (f : FaultCode) : (s.setFault f).pcm = s.pcm := rfl
@[simp] theorem setFault_presented (s : State) (f : FaultCode) : (s.setFault f).presented = s.presented := rfl
@[simp] theorem setFault_time (s : State) (f : FaultCode) : (s.setFault f).time = s.time := rfl

@[simp] theorem setSnap_mode (s : State) (x : Snapshot) : (s.setSnap x).mode = s.mode := rfl
@[simp] theorem setSnap_freq (s : State) (x : Snapshot) : (s.setSnap x).freq = s.freq := rfl
@[simp] theorem setSnap_ampl (s : State) (x : Snapshot) : (s.setSnap x).ampl = s.ampl := rfl
@[simp] theorem setSnap_sclk (s : State) (x : Snapshot) : (s.setSnap x).sclk = s.sclk := rfl
@[simp] theorem setSnap_lastsym (s : State) (x : Snapshot) : (s.setSnap x).lastsym = s.lastsym := rfl
@[simp] theorem setSnap_fault (s : State) (x : Snapshot) : (s.setSnap x).fault = s.fault := rfl
@[simp] theorem setSnap_snap (s : State) (x : Snapshot) : (s.setSnap x).snap = x := rfl
@[simp] theorem setSnap_keymap (s : State) (x : Snapshot) : (s.setSnap x).keymap = s.keymap := rfl
@[simp] theorem setSnap_block (s : State) (x : Snapshot) : (s.setSnap x).block = s.block := rfl
@[simp] theorem setSnap_outstanding (s : State) (x : Snapshot) : (s.setSnap x).outstanding = s.outstanding := rfl
@[simp] theorem setSnap_pcm (s : State) (x : Snapshot) : (s.setSnap x).pcm = s.pcm := rfl
@[simp] theorem setSnap_presented (s : State) (x : Snapshot) : (s.setSnap x).presented = s.presented := rfl
@[simp] theorem setSnap_time (s : State) (x : Snapshot) : (s.setSnap x).time = s.time := rfl

@[simp] theorem setKeymap_mode (s : State) (k : KeyMap) : (s.setKeymap k).mode = s.mode := rfl
@[simp] theorem setKeymap_freq (s : State) (k : KeyMap) : (s.setKeymap k).freq = s.freq := rfl
@[simp] theorem setKeymap_ampl (s : State) (k : KeyMap) : (s.setKeymap k).ampl = s.ampl := rfl
@[simp] theorem setKeymap_sclk (s : State) (k : KeyMap) : (s.setKeymap k).sclk = s.sclk := rfl
@[simp] theorem setKeymap_lastsym (s : State) (k : KeyMap) : (s.setKeymap k).lastsym = s.lastsym := rfl
@[simp] theorem setKeymap_fault (s : State) (k : KeyMap) : (s.setKeymap k).fault = s.fault := rfl
@[simp] theorem setKeymap_snap (s : State) (k : KeyMap) : (s.setKeymap k).snap = s.snap := rfl
@[simp] theorem setKeymap_keymap (s : State) (k : KeyMap) : (s.setKeymap k).keymap = k := rfl
@[simp] theorem setKeymap_block (s : State) (k : KeyMap) : (s.setKeymap k).block = s.block := rfl
@[simp] theorem setKeymap_outstanding (s : State) (k : KeyMap) : (s.setKeymap k).outstanding = s.outstanding := rfl
@[simp] theorem setKeymap_pcm (s : State) (k : KeyMap) : (s.setKeymap k).pcm = s.pcm := rfl
@[simp] theorem setKeymap_presented (s : State) (k : KeyMap) : (s.setKeymap k).presented = s.presented := rfl
@[simp] theorem setKeymap_time (s : State) (k : KeyMap) : (s.setKeymap k).time = s.time := rfl

@[simp] theorem setBlock_mode (s : State) (b : Option Block) : (s.setBlock b).mode = s.mode := rfl
@[simp] theorem setBlock_freq (s : State) (b : Option Block) : (s.setBlock b).freq = s.freq := rfl
@[simp] theorem setBlock_ampl (s : State) (b : Option Block) : (s.setBlock b).ampl = s.ampl := rfl
@[simp] theorem setBlock_sclk (s : State) (b : Option Block) : (s.setBlock b).sclk = s.sclk := rfl
@[simp] theorem setBlock_lastsym (s : State) (b : Option Block) : (s.setBlock b).lastsym = s.lastsym := rfl
@[simp] theorem setBlock_fault (s : State) (b : Option Block) : (s.setBlock b).fault = s.fault := rfl
@[simp] theorem setBlock_snap (s : State) (b : Option Block) : (s.setBlock b).snap = s.snap := rfl
@[simp] theorem setBlock_keymap (s : State) (b : Option Block) : (s.setBlock b).keymap = s.keymap := rfl
@[simp] theorem setBlock_block (s : State) (b : Option Block) : (s.setBlock b).block = b := rfl
@[simp] theorem setBlock_outstanding (s : State) (b : Option Block) : (s.setBlock b).outstanding = s.outstanding := rfl
@[simp] theorem setBlock_pcm (s : State) (b : Option Block) : (s.setBlock b).pcm = s.pcm := rfl
@[simp] theorem setBlock_presented (s : State) (b : Option Block) : (s.setBlock b).presented = s.presented := rfl
@[simp] theorem setBlock_time (s : State) (b : Option Block) : (s.setBlock b).time = s.time := rfl

@[simp] theorem setOutstanding_mode (s : State) (o : Outstanding) : (s.setOutstanding o).mode = s.mode := rfl
@[simp] theorem setOutstanding_freq (s : State) (o : Outstanding) : (s.setOutstanding o).freq = s.freq := rfl
@[simp] theorem setOutstanding_ampl (s : State) (o : Outstanding) : (s.setOutstanding o).ampl = s.ampl := rfl
@[simp] theorem setOutstanding_sclk (s : State) (o : Outstanding) : (s.setOutstanding o).sclk = s.sclk := rfl
@[simp] theorem setOutstanding_lastsym (s : State) (o : Outstanding) : (s.setOutstanding o).lastsym = s.lastsym := rfl
@[simp] theorem setOutstanding_fault (s : State) (o : Outstanding) : (s.setOutstanding o).fault = s.fault := rfl
@[simp] theorem setOutstanding_snap (s : State) (o : Outstanding) : (s.setOutstanding o).snap = s.snap := rfl
@[simp] theorem setOutstanding_keymap (s : State) (o : Outstanding) : (s.setOutstanding o).keymap = s.keymap := rfl
@[simp] theorem setOutstanding_block (s : State) (o : Outstanding) : (s.setOutstanding o).block = s.block := rfl
@[simp] theorem setOutstanding_outstanding (s : State) (o : Outstanding) : (s.setOutstanding o).outstanding = o := rfl
@[simp] theorem setOutstanding_pcm (s : State) (o : Outstanding) : (s.setOutstanding o).pcm = s.pcm := rfl
@[simp] theorem setOutstanding_presented (s : State) (o : Outstanding) : (s.setOutstanding o).presented = s.presented := rfl
@[simp] theorem setOutstanding_time (s : State) (o : Outstanding) : (s.setOutstanding o).time = s.time := rfl

@[simp] theorem setPcm_mode (s : State) (w : List Sample) : (s.setPcm w).mode = s.mode := rfl
@[simp] theorem setPcm_freq (s : State) (w : List Sample) : (s.setPcm w).freq = s.freq := rfl
@[simp] theorem setPcm_ampl (s : State) (w : List Sample) : (s.setPcm w).ampl = s.ampl := rfl
@[simp] theorem setPcm_sclk (s : State) (w : List Sample) : (s.setPcm w).sclk = s.sclk := rfl
@[simp] theorem setPcm_lastsym (s : State) (w : List Sample) : (s.setPcm w).lastsym = s.lastsym := rfl
@[simp] theorem setPcm_fault (s : State) (w : List Sample) : (s.setPcm w).fault = s.fault := rfl
@[simp] theorem setPcm_snap (s : State) (w : List Sample) : (s.setPcm w).snap = s.snap := rfl
@[simp] theorem setPcm_keymap (s : State) (w : List Sample) : (s.setPcm w).keymap = s.keymap := rfl
@[simp] theorem setPcm_block (s : State) (w : List Sample) : (s.setPcm w).block = s.block := rfl
@[simp] theorem setPcm_outstanding (s : State) (w : List Sample) : (s.setPcm w).outstanding = s.outstanding := rfl
@[simp] theorem setPcm_pcm (s : State) (w : List Sample) : (s.setPcm w).pcm = w := rfl
@[simp] theorem setPcm_presented (s : State) (w : List Sample) : (s.setPcm w).presented = s.presented := rfl
@[simp] theorem setPcm_time (s : State) (w : List Sample) : (s.setPcm w).time = s.time := rfl

@[simp] theorem setPresented_mode (s : State) (e : Option Input) : (s.setPresented e).mode = s.mode := rfl
@[simp] theorem setPresented_freq (s : State) (e : Option Input) : (s.setPresented e).freq = s.freq := rfl
@[simp] theorem setPresented_ampl (s : State) (e : Option Input) : (s.setPresented e).ampl = s.ampl := rfl
@[simp] theorem setPresented_sclk (s : State) (e : Option Input) : (s.setPresented e).sclk = s.sclk := rfl
@[simp] theorem setPresented_lastsym (s : State) (e : Option Input) : (s.setPresented e).lastsym = s.lastsym := rfl
@[simp] theorem setPresented_fault (s : State) (e : Option Input) : (s.setPresented e).fault = s.fault := rfl
@[simp] theorem setPresented_snap (s : State) (e : Option Input) : (s.setPresented e).snap = s.snap := rfl
@[simp] theorem setPresented_keymap (s : State) (e : Option Input) : (s.setPresented e).keymap = s.keymap := rfl
@[simp] theorem setPresented_block (s : State) (e : Option Input) : (s.setPresented e).block = s.block := rfl
@[simp] theorem setPresented_outstanding (s : State) (e : Option Input) : (s.setPresented e).outstanding = s.outstanding := rfl
@[simp] theorem setPresented_pcm (s : State) (e : Option Input) : (s.setPresented e).pcm = s.pcm := rfl
@[simp] theorem setPresented_presented (s : State) (e : Option Input) : (s.setPresented e).presented = e := rfl
@[simp] theorem setPresented_time (s : State) (e : Option Input) : (s.setPresented e).time = s.time := rfl

@[simp] theorem setTime_mode (s : State) (n : Nat) : (s.setTime n).mode = s.mode := rfl
@[simp] theorem setTime_freq (s : State) (n : Nat) : (s.setTime n).freq = s.freq := rfl
@[simp] theorem setTime_ampl (s : State) (n : Nat) : (s.setTime n).ampl = s.ampl := rfl
@[simp] theorem setTime_sclk (s : State) (n : Nat) : (s.setTime n).sclk = s.sclk := rfl
@[simp] theorem setTime_lastsym (s : State) (n : Nat) : (s.setTime n).lastsym = s.lastsym := rfl
@[simp] theorem setTime_fault (s : State) (n : Nat) : (s.setTime n).fault = s.fault := rfl
@[simp] theorem setTime_snap (s : State) (n : Nat) : (s.setTime n).snap = s.snap := rfl
@[simp] theorem setTime_keymap (s : State) (n : Nat) : (s.setTime n).keymap = s.keymap := rfl
@[simp] theorem setTime_block (s : State) (n : Nat) : (s.setTime n).block = s.block := rfl
@[simp] theorem setTime_outstanding (s : State) (n : Nat) : (s.setTime n).outstanding = s.outstanding := rfl
@[simp] theorem setTime_pcm (s : State) (n : Nat) : (s.setTime n).pcm = s.pcm := rfl
@[simp] theorem setTime_presented (s : State) (n : Nat) : (s.setTime n).presented = s.presented := rfl
@[simp] theorem setTime_time (s : State) (n : Nat) : (s.setTime n).time = n := rfl

theorem reset_eq : State.reset = State.resetWith Config.hw := rfl

@[simp] theorem reset_mode : State.reset.mode = .idle := rfl
@[simp] theorem reset_freq : State.reset.freq = { lo := 0, hi := 0 } := rfl
@[simp] theorem reset_ampl : State.reset.ampl = 5000 := rfl
@[simp] theorem reset_sclk : State.reset.sclk = 0 := rfl
@[simp] theorem reset_lastsym : State.reset.lastsym = none := rfl
@[simp] theorem reset_fault : State.reset.fault = .noFault := rfl
@[simp] theorem reset_keymap : State.reset.keymap = [] := rfl
@[simp] theorem reset_block : State.reset.block = none := rfl
@[simp] theorem reset_outstanding : State.reset.outstanding = .nothing := rfl
@[simp] theorem reset_pcm : State.reset.pcm = [] := rfl
@[simp] theorem reset_presented : State.reset.presented = none := rfl
@[simp] theorem reset_time : State.reset.time = 0 := rfl

end Sys2Proof.Machine.State
end

