-- ==== Sys2Proof/Laws/Ops.lean ====
section
/-! SUPPORT. What each shared operation can do, said once: the sticky fault, a press, a release, the lookup and the clamp. -/

namespace Sys2Proof.Machine

@[simp] theorem stickyFault_noFault (f : FaultCode) : stickyFault .noFault f = f := by simp [stickyFault]

theorem stickyFault_of_ne {held : FaultCode} (f : FaultCode) (h : held ≠ .noFault) : stickyFault held f = held := by
  simp [stickyFault, h]

theorem raise_eq (f : FaultCode) (s : State) : raise f s = s.setFault (stickyFault s.fault f) := rfl

/-- With a fault already held, raising another changes nothing. -/
theorem raise_of_ne {s : State} (f : FaultCode) (h : s.fault ≠ .noFault) : raise f s = s := by
  rw [raise_eq, stickyFault_of_ne f h]; rfl

@[simp] theorem hw_snapAtomic : Config.hw.snapAtomic = true := rfl

/-- With `SNAP_ATOMIC` true a press writes its three registers in one event. -/
theorem startDigit_atomic {c : Config} (h : c.snapAtomic = true) (sym : Symbol) (pair : FreqPair) (s : State) :
    startDigit c sym pair s = ((s.setFreq pair).setMode .digitActive).setLastsym (some sym) := by
  simp [startDigit, h]

/-- With `SNAP_ATOMIC` false the first write of a press leaves the mode as it is. -/
theorem startDigit_split {c : Config} (h : c.snapAtomic = false) (sym : Symbol) (pair : FreqPair) (s : State) :
    startDigit c sym pair s =
      ((s.setFreq pair).setLastsym (some sym)).setOutstanding { s.outstanding with modeWrite := true } := by
  simp [startDigit, h]

/-- All that a press can do: the digit starts, or the fault register takes `UnknownSymbol`. -/
theorem pressDigit_cases (c : Config) (sym : Symbol) (s : State) :
    (∃ pair, lookup c sym = some pair ∧ pressDigit c sym s = startDigit c sym pair s) ∨
    (lookup c sym = none ∧ pressDigit c sym s = raise .unknownSymbol s) := by
  unfold pressDigit
  cases h : lookup c sym with
  | some pair => exact .inl ⟨pair, rfl, rfl⟩
  | none => exact .inr ⟨rfl, rfl⟩

theorem pressDigit_of_some {c : Config} {sym : Symbol} {pair : FreqPair} (s : State) (h : lookup c sym = some pair) :
    pressDigit c sym s = startDigit c sym pair s := by
  simp [pressDigit, h]

theorem pressDigit_of_none {c : Config} {sym : Symbol} (s : State) (h : lookup c sym = none) :
    pressDigit c sym s = raise .unknownSymbol s := by
  simp [pressDigit, h]

theorem pressBound_of_some {c : Config} {key : KeyCode} {sym : Symbol} {s : State}
    (h : s.keymap.read key.toNat = some sym) : pressBound c key s = pressDigit c sym s := by
  simp [pressBound, h]

theorem pressBound_of_none {c : Config} {key : KeyCode} {s : State} (h : s.keymap.read key.toNat = none) :
    pressBound c key s = s := by
  simp [pressBound, h]

/-- All that the press of a bound key can do: nothing, the digit of its symbol, or the fault of an undefined symbol. -/
theorem pressBound_cases (c : Config) (key : KeyCode) (s : State) :
    (s.keymap.read key.toNat = none ∧ pressBound c key s = s) ∨
    (∃ sym pair, s.keymap.read key.toNat = some sym ∧ lookup c sym = some pair ∧
      pressBound c key s = startDigit c sym pair s) ∨
    (∃ sym, s.keymap.read key.toNat = some sym ∧ lookup c sym = none ∧
      pressBound c key s = raise .unknownSymbol s) := by
  cases h : s.keymap.read key.toNat with
  | none => exact .inl ⟨rfl, pressBound_of_none h⟩
  | some sym =>
    rw [pressBound_of_some h]
    rcases pressDigit_cases c sym s with ⟨pair, hl, he⟩ | ⟨hl, he⟩
    · exact .inr (.inl ⟨sym, pair, rfl, hl, he⟩)
    · exact .inr (.inr ⟨sym, rfl, hl, he⟩)

/-- A release on a match clears the mode or does nothing. -/
theorem releaseOnMatch_cases (sym : Symbol) (s : State) :
    (s.lastsym = some sym ∧ releaseOnMatch sym s = s.setMode .idle) ∨
    (s.lastsym ≠ some sym ∧ releaseOnMatch sym s = s) := by
  by_cases h : s.lastsym = some sym
  · exact .inl ⟨h, if_pos h⟩
  · exact .inr ⟨h, if_neg h⟩

@[simp] theorem releaseDigit_always (sym : Symbol) (s : State) : releaseDigit .always sym s = s.setMode .idle := rfl

@[simp] theorem releaseDigit_onMatch (sym : Symbol) (s : State) :
    releaseDigit .onMatch sym s = releaseOnMatch sym s := rfl

theorem ftabFind_mem {rows : List (Symbol × FreqPair)} {sym : Symbol} {pair : FreqPair}
    (h : ftabFind rows sym = some pair) : (sym, pair) ∈ rows := by
  induction rows with
  | nil => cases h
  | cons row rows ih =>
    obtain ⟨code, p⟩ := row
    rw [ftabFind] at h
    split at h
    · rename_i hc
      cases h
      exact hc ▸ List.mem_cons_self ..
    · exact List.mem_cons_of_mem _ (ih h)

end Sys2Proof.Machine

namespace Sys2Proof

theorem clamp_eq (v lo hi : Int) (h : lo ≤ hi) : clamp v lo hi = max lo (min v hi) := by
  unfold clamp
  split
  · omega
  · split <;> omega

end Sys2Proof
end

