-- ==== Sys2Proof/Laws/Render.lean ====
section
/-! SUPPORT. What a block does: the length and the splitting of its samples, the fields a whole block writes, and the two
ways a sample event ends. -/

namespace Sys2Proof.Machine

@[simp] theorem sampleIndex_zero (base : BitVec 64) : sampleIndex base 0 = base := by simp [sampleIndex]

theorem sampleIndex_add (base : BitVec 64) (i j : Nat) :
    sampleIndex (sampleIndex base i) j = sampleIndex base (i + j) := by
  simp only [sampleIndex, BitVec.ofNat_add, BitVec.add_assoc]

@[simp] theorem blockSamples_length (c : Config) (x : Snapshot) (base : BitVec 64) (n : Nat) :
    (blockSamples c x base n).length = n := by
  simp [blockSamples]

@[simp] theorem blockSamples_zero (c : Config) (x : Snapshot) (base : BitVec 64) : blockSamples c x base 0 = [] := rfl

theorem blockSamples_succ (c : Config) (x : Snapshot) (base : BitVec 64) (n : Nat) :
    blockSamples c x base (n + 1) = blockSamples c x base n ++ [sampleAt c x (sampleIndex base n)] := by
  simp [blockSamples, List.range_succ]

@[simp] theorem blockSamples_one (c : Config) (x : Snapshot) (base : BitVec 64) :
    blockSamples c x base 1 = [sampleAt c x base] := by
  simp [blockSamples_succ]

theorem blockSamples_add (c : Config) (x : Snapshot) (base : BitVec 64) (m n : Nat) :
    blockSamples c x base (m + n) = blockSamples c x base m ++ blockSamples c x (sampleIndex base m) n := by
  induction n with
  | zero => simp
  | succ n ih => rw [← Nat.add_assoc, blockSamples_succ, ih, blockSamples_succ, sampleIndex_add, List.append_assoc]

@[simp] theorem renderBlock_mode (c : Config) (n : Nat) (s : State) : (renderBlock c n s).mode = s.mode := rfl
@[simp] theorem renderBlock_freq (c : Config) (n : Nat) (s : State) : (renderBlock c n s).freq = s.freq := rfl
@[simp] theorem renderBlock_ampl (c : Config) (n : Nat) (s : State) : (renderBlock c n s).ampl = s.ampl := rfl
@[simp] theorem renderBlock_lastsym (c : Config) (n : Nat) (s : State) : (renderBlock c n s).lastsym = s.lastsym := rfl
@[simp] theorem renderBlock_fault (c : Config) (n : Nat) (s : State) : (renderBlock c n s).fault = s.fault := rfl
@[simp] theorem renderBlock_keymap (c : Config) (n : Nat) (s : State) : (renderBlock c n s).keymap = s.keymap := rfl
@[simp] theorem renderBlock_block (c : Config) (n : Nat) (s : State) : (renderBlock c n s).block = s.block := rfl
@[simp] theorem renderBlock_outstanding (c : Config) (n : Nat) (s : State) :
    (renderBlock c n s).outstanding = s.outstanding := rfl
@[simp] theorem renderBlock_presented (c : Config) (n : Nat) (s : State) :
    (renderBlock c n s).presented = s.presented := rfl
@[simp] theorem renderBlock_time (c : Config) (n : Nat) (s : State) : (renderBlock c n s).time = s.time := rfl
@[simp] theorem renderBlock_snap (c : Config) (n : Nat) (s : State) : (renderBlock c n s).snap = s.signal := rfl
@[simp] theorem renderBlock_sclk (c : Config) (n : Nat) (s : State) :
    (renderBlock c n s).sclk = sampleIndex s.sclk n := rfl
@[simp] theorem renderBlock_pcm (c : Config) (n : Nat) (s : State) :
    (renderBlock c n s).pcm = s.pcm ++ blockSamples c s.signal s.sclk n := rfl
@[simp] theorem renderBlock_signal (c : Config) (n : Nat) (s : State) : (renderBlock c n s).signal = s.signal := rfl

theorem execRender_of_none {s : State} (n : BitVec 20) (h : s.block = none) :
    execRender n s = .next (renderBlock Config.hw n.toNat s) := by
  simp [execRender, renderRequest, h, Config.hw]

theorem execRender_of_some {s : State} {b : Block} (n : BitVec 20) (h : s.block = some b) :
    execRender n s = .fault .renderOverlap := by
  simp [execRender, renderRequest, h]

/-- A sample that is not the last leaves the block one sample further. -/
theorem blockSample_of_lt (c : Config) {b : Block} (s : State) (h : b.produced + 1 < b.frames) :
    blockSample c b s =
      (s.setPcm (s.pcm ++ [sampleAt c s.snap (sampleIndex b.base b.produced)])).setBlock
        (some { b with produced := b.produced + 1 }) := by
  simp [blockSample, h]

/-- The last sample ends the block and writes the clock. -/
theorem blockSample_of_not_lt (c : Config) {b : Block} (s : State) (h : ¬ b.produced + 1 < b.frames) :
    blockSample c b s =
      ((s.setPcm (s.pcm ++ [sampleAt c s.snap (sampleIndex b.base b.produced)])).setBlock none).setSclk
        (sampleIndex b.base b.frames) := by
  simp [blockSample, h]

@[simp] theorem execInputsWith_nil (c : Config) (s : State) : execInputsWith c [] s = .next s := rfl

theorem execInputsWith_cons_next {c : Config} {e : Input} {s t : State} (es : List Input)
    (h : execInputWith c e s = .next t) : execInputsWith c (e :: es) s = execInputsWith c es t := by
  simp [execInputsWith, h]

@[simp] theorem execInputs_nil (s : State) : execInputs [] s = .next s := rfl

theorem execInputs_cons_next {e : Input} {s t : State} (es : List Input) (h : execInput e s = .next t) :
    execInputs (e :: es) s = execInputs es t :=
  execInputsWith_cons_next es h

end Sys2Proof.Machine
end

