-- ==== Sys2Proof/Laws/Events.lean ====
section
/-! SUPPORT. What a word on a port can do (its operation, or the fault of an illegal word), what a step can do, and that the
names of this hardware are the parametric ones at its values. -/

namespace Sys2Proof.Machine

/-- `exec` is the parametric meaning at this hardware's values. -/
@[simp] theorem execWith_hw (i : Instr) (s : State) : execWith Config.hw i s = exec i s := by
  cases i <;> rfl

@[simp] theorem pressUnfinished_hw (s : State) : pressUnfinished Config.hw s = false := rfl

@[simp] theorem readsUnfinished_hw (s : State) : readsUnfinished Config.hw s = false := rfl

@[simp] theorem writeMode_hw (s : State) : writeMode Config.hw s = s := by simp [writeMode]

@[simp] theorem readField_hw (f : SignalField) (s : State) : readField Config.hw f s = s := by simp [readField]

@[simp] theorem sampleEvent_hw (s : State) : sampleEvent Config.hw s = .next (produceSample Config.hw s) := by
  simp [sampleEvent]

@[simp] theorem runOn_hw (s : State) : runOn Config.hw s = produceSample Config.hw s := by simp [runOn]

/-- The block start of this hardware: the snapshot in one event (R39). -/
theorem beginBlock_hw (n : Nat) (s : State) :
    beginBlock Config.hw n s =
      (s.setSnap s.signal).setBlock (if n = 0 then none else some { base := s.sclk, frames := n, produced := 0 }) := rfl

theorem step_eq (s : State) : step s = stepWith Config.hw Config.agents s := rfl

theorem execWord_ok {port : Port} {w : Word} {i : Instr} (s : State) (h : decode port w = .ok i) :
    execWord port w s = exec i s := by
  simp [execWord, execWordWith, h]

theorem execWord_error {port : Port} {w : Word} {r : IllegalWord} (s : State) (h : decode port w = .error r) :
    execWord port w s = .next (raise .illegalCommand s) := by
  simp [execWord, execWordWith, h]

/-- A word runs the operation it decodes to or raises IllegalCommand. -/
theorem execWord_cases (port : Port) (w : Word) (s : State) :
    (∃ i, decode port w = .ok i ∧ execWord port w s = exec i s) ∨
    (∃ r, decode port w = .error r ∧ execWord port w s = .next (raise .illegalCommand s)) := by
  cases h : decode port w with
  | ok i => exact .inl ⟨i, rfl, execWord_ok s h⟩
  | error r => exact .inr ⟨r, rfl, execWord_error s h⟩

/-- A meaning of the audio port is RENDER's: nothing else decodes there. -/
theorem decode_audio_ok {w : Word} {i : Instr} (h : decode .audio w = .ok i) : ∃ n, i = .render n := by
  simp only [decode, decodeAudio] at h
  split at h
  · unfold needZero at h
    split at h
    · cases h; exact ⟨_, rfl⟩
    · cases h
  all_goals cases h

theorem execBlockStart_render {w : Word} {n : BitVec 20} (s : State) (h : decode .audio w = .ok (.render n)) :
    execBlockStart w s = startRender Config.hw n s := by
  simp [execBlockStart, execBlockStartWith, h]

theorem execBlockStart_error {w : Word} {r : IllegalWord} (s : State) (h : decode .audio w = .error r) :
    execBlockStart w s = .next (raise .illegalCommand s) := by
  simp [execBlockStart, execBlockStartWith, execWordWith, h]

theorem startRender_of_none {s : State} (n : BitVec 20) (h : s.block = none) :
    startRender Config.hw n s = .next (beginBlock Config.hw n.toNat s) := by
  simp [startRender, h]

theorem produceSample_of_none (c : Config) {s : State} (h : s.block = none) : produceSample c s = s := by
  simp [produceSample, h]

theorem produceSample_of_some (c : Config) {s : State} {b : Block} (h : s.block = some b) :
    produceSample c s = blockSample c b s := by
  simp [produceSample, h]

/-- The state after a reset does not depend on the state before it, but for the inputs. -/
theorem execReset_eq (s : State) : execReset s = (State.reset.setPresented s.presented).setTime s.time := rfl

@[simp] theorem nextInput_presented {agents : Nat → Option Input} {s : State} {e : Input} (h : s.presented = some e) :
    nextInput agents s = some e := by
  simp [nextInput, h]

@[simp] theorem nextInput_stream {agents : Nat → Option Input} {s : State} (h : s.presented = none) :
    nextInput agents s = agents s.time := by
  simp [nextInput, h]

theorem stepWith_some {c : Config} {agents : Nat → Option Input} {s : State} {e : Input}
    (h : nextInput agents s = some e) : stepWith c agents s = execInputWith c e (consumed s) := by
  simp [stepWith, execNextWith, h]

/-- When no event comes what is begun runs on. -/
theorem stepWith_none {c : Config} {agents : Nat → Option Input} {s : State} (h : nextInput agents s = none) :
    stepWith c agents s = .next (runOn c (consumed s)) := by
  simp [stepWith, execNextWith, h]

/-- All that a step of this hardware can do: an event, or, when none comes, the next sample of a block in progress. -/
theorem step_cases (s : State) :
    (∃ e, nextInput Config.agents s = some e ∧ step s = execInput e (consumed s)) ∨
    (nextInput Config.agents s = none ∧ step s = .next (produceSample Config.hw (consumed s))) := by
  cases h : nextInput Config.agents s with
  | some e => exact .inl ⟨e, rfl, stepWith_some h⟩
  | none => exact .inr ⟨rfl, by rw [step_eq, stepWith_none h, runOn_hw]⟩

end Sys2Proof.Machine
end

