-- ==== Sys2Proof/Laws/KeyMap.lean ====
section
/-! SUPPORT. The laws of `KEYMAP` (R36): read after write, the canonical form is kept, equal reads are equal tables. -/

namespace Sys2Proof.Machine.KeyMap

@[simp] theorem read_nil (key : Nat) : KeyMap.read [] key = none := rfl

theorem read_cons (cell : Host.Cell) (m : KeyMap) (key : Nat) :
    KeyMap.read (cell :: m) key = if cell.1 = key then some cell.2 else KeyMap.read m key := rfl

theorem bind_cons (cell : Host.Cell) (m : KeyMap) (key : Nat) (sym : Symbol) :
    KeyMap.bind (cell :: m) key sym =
      if key < cell.1 then (key, sym) :: cell :: m
      else if key = cell.1 then (key, sym) :: m
      else cell :: KeyMap.bind m key sym := rfl

/-- The row a BINDKEY wrote reads as it was written. -/
@[simp] theorem read_bind_same (m : KeyMap) (key : Nat) (sym : Symbol) : (m.bind key sym).read key = some sym := by
  induction m with
  | nil => simp [KeyMap.bind, KeyMap.read]
  | cons cell m ih =>
    rw [bind_cons]
    split
    · simp [read_cons]
    · split
      · simp [read_cons]
      · rename_i _ hne
        rw [read_cons, if_neg (fun h => hne h.symm), ih]

/-- Every other row reads as before. -/
theorem read_bind_other (m : KeyMap) {key other : Nat} (sym : Symbol) (h : other ≠ key) :
    (m.bind key sym).read other = m.read other := by
  induction m with
  | nil => simp [KeyMap.bind, KeyMap.read, Ne.symm h]
  | cons cell m ih =>
    rw [bind_cons]
    split
    · rw [read_cons, if_neg (Ne.symm h)]
    · split
      · rename_i _ hk
        rw [read_cons, read_cons, if_neg (Ne.symm h), if_neg (by omega)]
      · rw [read_cons, read_cons, ih]

/-- A write adds the key it writes and no other. -/
theorem mem_bind {m : KeyMap} {key : Nat} {sym : Symbol} {cell : Host.Cell} (h : cell ∈ m.bind key sym) :
    cell.1 = key ∨ cell ∈ m := by
  induction m with
  | nil => simp_all [KeyMap.bind]
  | cons head m ih =>
    rw [bind_cons] at h
    split at h
    · rcases List.mem_cons.1 h with rfl | h
      · exact .inl rfl
      · exact .inr h
    · split at h
      · rcases List.mem_cons.1 h with rfl | h
        · exact .inl rfl
        · exact .inr (List.mem_cons_of_mem _ h)
      · rcases List.mem_cons.1 h with rfl | h
        · exact .inr (List.mem_cons_self ..)
        · exact (ih h).imp_right (List.mem_cons_of_mem _)

theorem wf_nil : KeyMap.wf [] := by decide

/-- Every write keeps the canonical form. -/
theorem bind_wf {m : KeyMap} {key : Nat} (sym : Symbol) (hm : m.wf) (hkey : key < 2 ^ 20) : (m.bind key sym).wf := by
  obtain ⟨hrise, hbound⟩ := hm
  refine ⟨?_, fun cell h => ?_⟩
  · clear hbound
    induction m with
    | nil => simp [KeyMap.bind]
    | cons head m ih =>
      obtain ⟨hhead, hrest⟩ := List.pairwise_cons.1 hrise
      rw [bind_cons]
      split
      · rename_i hlt
        refine List.pairwise_cons.2 ⟨fun cell h => ?_, hrise⟩
        rcases List.mem_cons.1 h with rfl | h
        · exact hlt
        · exact Nat.lt_trans hlt (hhead cell h)
      · split
        · rename_i _ heq
          exact List.pairwise_cons.2 ⟨fun cell h => heq ▸ hhead cell h, hrest⟩
        · refine List.pairwise_cons.2 ⟨fun cell h => ?_, ih hrest⟩
          rcases mem_bind h with h | h
          · omega
          · exact hhead cell h
  · rcases mem_bind h with h | h
    · omega
    · exact hbound cell h

/-- A key below every listed key reads `unbound`. -/
theorem read_of_lt {m : KeyMap} {key : Nat} (h : ∀ cell ∈ m, key < cell.1) : m.read key = none := by
  induction m with
  | nil => rfl
  | cons head m ih =>
    rw [read_cons, if_neg, ih fun cell hc => h cell (List.mem_cons_of_mem _ hc)]
    have := h head (List.mem_cons_self ..)
    omega

/-- In canonical form a table is what it reads: equal reads are equal data. -/
theorem ext_of_read {a b : KeyMap} (ha : a.wf) (hb : b.wf) (h : ∀ key, a.read key = b.read key) : a = b := by
  obtain ⟨ha, -⟩ := ha
  obtain ⟨hb, -⟩ := hb
  induction a generalizing b with
  | nil =>
    cases b with
    | nil => rfl
    | cons y b => simpa [read_cons] using h y.1
  | cons x a ih =>
    obtain ⟨hx, ha⟩ := List.pairwise_cons.1 ha
    cases b with
    | nil => simpa [read_cons] using h x.1
    | cons y b =>
      obtain ⟨hy, hb'⟩ := List.pairwise_cons.1 hb
      have hkey : x.1 = y.1 := by
        rcases Nat.lt_trichotomy x.1 y.1 with hlt | heq | hlt
        · have h1 := h x.1
          rw [read_cons, if_pos rfl, read_cons, if_neg (by omega),
            read_of_lt fun cell hc => Nat.lt_trans hlt (hy cell hc)] at h1
          cases h1
        · exact heq
        · have h1 := h y.1
          rw [read_cons, if_neg (by omega), read_cons, if_pos rfl,
            read_of_lt fun cell hc => Nat.lt_trans hlt (hx cell hc)] at h1
          cases h1
      have hval : x.2 = y.2 := by
        have h1 := h x.1
        rw [read_cons, if_pos rfl, read_cons, if_pos hkey.symm] at h1
        exact Option.some.inj h1
      have hxy : x = y := Prod.ext hkey hval
      subst hxy
      refine congrArg (x :: ·) (ih (b := b) (fun key => ?_) ha hb')
      by_cases hk : x.1 = key
      · subst hk
        rw [read_of_lt hx, read_of_lt hy]
      · have h1 := h key
        rwa [read_cons, if_neg hk, read_cons, if_neg hk] at h1

end Sys2Proof.Machine.KeyMap
end

