-- ==== Sys2Proof/Laws/PerInstr.lean ====
section
/-! SUPPORT. The family RoundTrip: for each operation, its word decodes on its port to it (R51, R53). -/

namespace Sys2Proof.Laws.RoundTrip

def Statement (i : Instr) : Prop := i.wellFormed = true → decode i.port (encode i) = .ok i

theorem pressd (sym : Symbol) : Statement (.pressd sym) := by
  intro _; simp [decode, encode, Instr.port, decodeControl]

theorem reld (sym : Symbol) : Statement (.reld sym) := by
  intro _; simp [decode, encode, Instr.port, decodeControl]

theorem pressmDial : Statement .pressmDial := by
  intro _; simp [decode, encode, Instr.port, decodeControl, kindOperand]

theorem pressmRing : Statement .pressmRing := by
  intro _; simp [decode, encode, Instr.port, decodeControl, kindOperand]

theorem pressmBusy : Statement .pressmBusy := by
  intro _; simp [decode, encode, Instr.port, decodeControl, kindOperand]

theorem relmDial : Statement .relmDial := by
  intro _; simp [decode, encode, Instr.port, decodeControl, kindOperand]

theorem relmRing : Statement .relmRing := by
  intro _; simp [decode, encode, Instr.port, decodeControl, kindOperand]

theorem relmBusy : Statement .relmBusy := by
  intro _; simp [decode, encode, Instr.port, decodeControl, kindOperand]

theorem setamp (ampv : Int) : Statement (.setamp ampv) := by
  intro h
  obtain ⟨hlo, hhi⟩ : -524288 ≤ ampv ∧ ampv ≤ 524287 := by simpa [Instr.wellFormed] using h
  simp [decode, encode, Instr.port, decodeControl, ampvOf_ofInt hlo hhi]

theorem bindkey (key : KeyCode) (sym : Symbol) : Statement (.bindkey key sym) := by
  intro _; simp [decode, encode, Instr.port, decodeControl]

theorem keydn (key : KeyCode) : Statement (.keydn key) := by
  intro _; simp [decode, encode, Instr.port, decodeControl]

theorem keyup (key : KeyCode) : Statement (.keyup key) := by
  intro _; simp [decode, encode, Instr.port, decodeControl]

theorem render (n : BitVec 20) : Statement (.render n) := by
  intro _; simp [decode, encode, Instr.port, decodeAudio]

end Sys2Proof.Laws.RoundTrip
end

