-- ==== Sys2Proof/Laws/Separation.lean ====
section
/-! SUPPORT. The distance from 0 of a sum of roots of unity with integer coefficients, and so the distance of an ideal value from
an integer, on which the last precision of `settle` rests (log entry 6). -/

open Finset Sys2Proof.Machine

namespace Sys2Proof.Laws

/-- In any field that a primitive `N`-th root of unity generates: a sum of `N`-th roots
of unity with integer coefficients that is not 0 is not small, since the product of its conjugates is an integer
other than 0, and each conjugate is at most the sum `H` of the coefficients' sizes. -/
theorem rootSum_separated_in (K : Type) [Field K] [NumberField K] {ι : Type} (s : Finset ι) (c : ι → ℤ) (e : ι → ℕ) {N : ℕ} [NeZero N]
    [IsCyclotomicExtension ({N} : Set ℕ) ℚ K] {ζ : ℂ}
    (hζ : IsPrimitiveRoot ζ N) {H : ℝ} (hH : 1 ≤ H) (hc : ∑ i ∈ s, |(c i : ℝ)| ≤ H)
    (hne : ∑ i ∈ s, (c i : ℂ) * ζ ^ e i ≠ 0) :
    1 ≤ ‖∑ i ∈ s, (c i : ℂ) * ζ ^ e i‖ * H ^ N := by
  classical
  have hN : 0 < N := NeZero.pos N
  let z : K := IsCyclotomicExtension.zeta N ℚ K
  have hz : IsPrimitiveRoot z N := IsCyclotomicExtension.zeta_spec N ℚ K
  let x : K := ∑ i ∈ s, (c i : K) * z ^ e i
  have hσ : ∀ σ : K →ₐ[ℚ] ℂ, σ x = ∑ i ∈ s, (c i : ℂ) * σ z ^ e i := fun σ => by
    simp only [x, map_sum, map_mul, map_pow, map_intCast]
  have hbound : ∀ σ : K →ₐ[ℚ] ℂ, ‖σ x‖ ≤ H := fun σ => by
    have h1 : ‖σ z‖ = 1 := (hz.map_of_injective σ.toRingHom.injective).norm'_eq_one hN.ne'
    rw [hσ]
    refine (norm_sum_le _ _).trans (le_trans (le_of_eq ?_) hc)
    refine sum_congr rfl fun i _ => ?_
    rw [norm_mul, norm_pow, h1, one_pow, mul_one, Complex.norm_intCast]
  obtain ⟨σ₀, hσ₀⟩ : ∃ σ : K →ₐ[ℚ] ℂ, σ z = ζ := by
    have hirr := Polynomial.cyclotomic.irreducible_rat hN
    refine ⟨(hz.embeddingsEquivPrimitiveRoots ℂ hirr).symm ⟨ζ, (mem_primitiveRoots hN).mpr hζ⟩, ?_⟩
    rw [← hz.embeddingsEquivPrimitiveRoots_apply_coe ℂ hirr, Equiv.apply_symm_apply]
  have hx0 : x ≠ 0 := by
    intro h
    apply hne
    rw [← hσ₀, ← hσ σ₀, h, map_zero]
  have hint : IsIntegral ℤ x := by
    refine IsIntegral.sum _ fun i _ => ?_
    exact (isIntegral_algebraMap (R := ℤ) (A := K) (x := c i)).mul ((hz.isIntegral hN).pow _)
  have hnorm : 1 ≤ |(Algebra.norm ℚ x : ℚ)| := by
    obtain ⟨k, hk⟩ := IsIntegrallyClosed.isIntegral_iff.mp (Algebra.isIntegral_norm ℚ hint)
    have hk0 : k ≠ 0 := by
      rintro rfl
      exact (Algebra.norm_ne_zero_iff.mpr hx0) (by rw [← hk, map_zero])
    rw [← hk]
    simp only [eq_intCast, ← Int.cast_abs]
    exact_mod_cast Int.one_le_abs hk0
  have hprod : ((|(Algebra.norm ℚ x : ℚ)| : ℚ) : ℝ) = ∏ σ : K →ₐ[ℚ] ℂ, ‖σ x‖ := by
    rw [← norm_prod, ← Algebra.norm_eq_prod_embeddings ℚ ℂ x]
    simp
  have hle : ∏ σ : K →ₐ[ℚ] ℂ, ‖σ x‖ ≤ ‖σ₀ x‖ * H ^ N := by
    rw [← mul_prod_erase univ _ (mem_univ σ₀)]
    refine mul_le_mul_of_nonneg_left ?_ (norm_nonneg _)
    refine (prod_le_prod (fun _ _ => norm_nonneg _) fun σ _ => hbound σ).trans ?_
    rw [prod_const]
    refine pow_le_pow_right₀ hH ?_
    have hcard : Fintype.card (K →ₐ[ℚ] ℂ) = N.totient := by
      rw [AlgHom.card, IsCyclotomicExtension.finrank (n := N) K (Polynomial.cyclotomic.irreducible_rat hN)]
    calc (univ.erase σ₀).card ≤ Fintype.card (K →ₐ[ℚ] ℂ) := by rw [← card_univ]; exact card_le_card (erase_subset _ _)
      _ = N.totient := hcard
      _ ≤ N := Nat.totient_le N
  have hfin : ‖σ₀ x‖ = ‖∑ i ∈ s, (c i : ℂ) * ζ ^ e i‖ := by rw [hσ, hσ₀]
  rw [← hfin]
  have : (1 : ℝ) ≤ ((|(Algebra.norm ℚ x : ℚ)| : ℚ) : ℝ) := by exact_mod_cast hnorm
  exact (this.trans_eq hprod).trans hle

/-- A sum of `N`-th roots of unity with integer coefficients is 0 or at least the inverse of `H ^ N`. -/
theorem rootSum_separated {ι : Type} (s : Finset ι) (c : ι → ℤ) (e : ι → ℕ) {N : ℕ} (hN : 0 < N) {ζ : ℂ}
    (hζ : IsPrimitiveRoot ζ N) {H : ℝ} (hH : 1 ≤ H) (hc : ∑ i ∈ s, |(c i : ℝ)| ≤ H)
    (hne : ∑ i ∈ s, (c i : ℂ) * ζ ^ e i ≠ 0) :
    1 ≤ ‖∑ i ∈ s, (c i : ℂ) * ζ ^ e i‖ * H ^ N := by
  have : NeZero N := ⟨hN.ne'⟩
  have hC : @IsCyclotomicExtension {N} ℚ (CyclotomicField N ℚ) _ _ (CyclotomicField.algebra N ℚ) := inferInstance
  have : IsCyclotomicExtension {N} ℚ (CyclotomicField N ℚ) := by
    convert hC
    exact Subsingleton.elim _ _
  exact rootSum_separated_in (CyclotomicField N ℚ) s c e hζ hH hc hne

/-- `rootSum_separated` for a list of coefficients and exponents. -/
theorem rootSum_list_separated (l : List (ℤ × ℕ)) {N : ℕ} (hN : 0 < N) {ζ : ℂ}
    (hζ : IsPrimitiveRoot ζ N) {H : ℝ} (hH : 1 ≤ H) (hc : (l.map fun t => |(t.1 : ℝ)|).sum ≤ H)
    (hne : (l.map fun t => (t.1 : ℂ) * ζ ^ t.2).sum ≠ 0) :
    1 ≤ ‖(l.map fun t => (t.1 : ℂ) * ζ ^ t.2).sum‖ * H ^ N := by
  have e1 := Fin.sum_univ_fun_getElem l (fun t => (t.1 : ℂ) * ζ ^ t.2)
  have e2 := Fin.sum_univ_fun_getElem l (fun t => |(t.1 : ℝ)|)
  rw [← e1] at hne ⊢
  rw [← e2] at hc
  exact rootSum_separated Finset.univ (fun i : Fin l.length => l[i].1) (fun i => l[i].2) hN hζ hH hc hne

/-- `exp (2πi / 4·fs)`, of which both `i` and every phase of R78 are powers. -/
noncomputable def zeta (fs : ℕ) : ℂ := Complex.exp (2 * Real.pi * Complex.I / ((4 * fs : ℕ) : ℂ))

theorem zeta_isPrimitiveRoot {fs : ℕ} (h : 0 < fs) : IsPrimitiveRoot (zeta fs) (4 * fs) :=
  Complex.isPrimitiveRoot_exp _ (by omega)

/-- Twice the sine of a phase is a difference of two powers of `zeta`. -/
theorem two_mul_sin_eq (fs p : ℕ) (h : 0 < fs) :
    (2 * Real.sin (2 * Real.pi * p / fs) : ℂ) = zeta fs ^ (3 * fs + 4 * p) - zeta fs ^ (3 * fs + (4 * fs - 1) * (4 * p)) := by
  have hz := (zeta_isPrimitiveRoot h).pow_eq_one
  have hfs : (fs : ℂ) ≠ 0 := by exact_mod_cast h.ne'
  have h3 : zeta fs ^ (3 * fs) = -Complex.I := by
    rw [zeta, ← Complex.exp_nat_mul]
    rw [show ((3 * fs : ℕ) : ℂ) * (2 * Real.pi * Complex.I / ((4 * fs : ℕ) : ℂ)) = -(Real.pi / 2 * Complex.I) + 2 * Real.pi * Complex.I by
      push_cast; field_simp; ring]
    rw [Complex.exp_add, Complex.exp_two_pi_mul_I, mul_one, Complex.exp_neg, Complex.exp_pi_div_two_mul_I, Complex.inv_I]
  have h4 : zeta fs ^ (4 * p) = Complex.exp ((2 * Real.pi * p / fs : ℝ) * Complex.I) := by
    rw [zeta, ← Complex.exp_nat_mul]
    congr 1
    push_cast; field_simp
  have h5 : zeta fs ^ ((4 * fs - 1) * (4 * p)) = Complex.exp (-((2 * Real.pi * p / fs : ℝ) * Complex.I)) := by
    rw [Complex.exp_neg, ← h4]
    refine eq_inv_of_mul_eq_one_left ?_
    rw [← pow_add, show (4 * fs - 1) * (4 * p) + 4 * p = (4 * fs) * (4 * p) by
      obtain ⟨k, rfl⟩ : ∃ k, fs = k + 1 := ⟨fs - 1, by omega⟩
      rw [show 4 * (k + 1) - 1 = 4 * k + 3 by omega]; ring, pow_mul, hz, one_pow]
  rw [pow_add, pow_add, h3, h4, h5]
  rw [Complex.ofReal_sin, Complex.sin]
  rw [show (-((2 * Real.pi * p / fs : ℝ) : ℂ) * Complex.I) = -(((2 * Real.pi * p / fs : ℝ) : ℂ) * Complex.I) by ring]
  ring

/-- Twice an ideal value is the integer `k` or lies at least `1 / H ^ (4·fs)` from it. -/
theorem idealValue_separated (fs : ℕ) (ps : List ℕ) (A k : ℤ) (h : 0 < fs)
    (hne : 2 * ((A : ℝ) * Ideal.sineSum fs ps) ≠ k) {H : ℝ} (hH1 : 1 ≤ H) (hH : 2 * ps.length * |(A : ℝ)| + |(k : ℝ)| ≤ H) :
    1 ≤ |2 * ((A : ℝ) * Ideal.sineSum fs ps) - k| * H ^ (4 * fs) := by
  let l : List (ℤ × ℕ) := (-k, 0) :: ps.flatMap fun p => [(A, 3 * fs + 4 * p), (-A, 3 * fs + (4 * fs - 1) * (4 * p))]
  have hsum : (l.map fun t => (t.1 : ℂ) * zeta fs ^ t.2).sum = ((2 * ((A : ℝ) * Ideal.sineSum fs ps) - k : ℝ) : ℂ) := by
    have : ∀ qs : List ℕ, (((qs.flatMap fun p => [(A, 3 * fs + 4 * p), (-A, 3 * fs + (4 * fs - 1) * (4 * p))]).map
        fun t => (t.1 : ℂ) * zeta fs ^ t.2).sum) = ((2 * ((A : ℝ) * Ideal.sineSum fs qs) : ℝ) : ℂ) := by
      intro qs
      induction qs with
      | nil => simp [Ideal.sineSum]
      | cons q qs ih =>
        rw [List.flatMap_cons, List.map_append, List.sum_append, ih]
        have := two_mul_sin_eq fs q h
        simp only [Ideal.sineSum, List.map_cons, List.sum_cons, List.map_nil, List.sum_nil, Int.cast_neg] at *
        push_cast at *
        linear_combination (-(A : ℂ)) * this
    simp only [l, List.map_cons, List.sum_cons, this]
    push_cast
    ring
  have habs : (l.map fun t => |(t.1 : ℝ)|).sum ≤ H := by
    have : ∀ qs : List ℕ, (((qs.flatMap fun p => [(A, 3 * fs + 4 * p), (-A, 3 * fs + (4 * fs - 1) * (4 * p))]).map
        fun t => |(t.1 : ℝ)|).sum) = 2 * qs.length * |(A : ℝ)| := by
      intro qs
      induction qs with
      | nil => simp
      | cons q qs ih =>
        rw [List.flatMap_cons, List.map_append, List.sum_append, ih]
        simp
        ring
    simp only [l, List.map_cons, List.sum_cons, this]
    push_cast
    simpa [abs_neg, add_comm] using hH
  have hz : ((2 * ((A : ℝ) * Ideal.sineSum fs ps) - k : ℝ) : ℂ) ≠ 0 := by
    rw [Complex.ofReal_ne_zero]
    exact sub_ne_zero.mpr hne
  have := rootSum_list_separated l (by omega) (zeta_isPrimitiveRoot h) hH1 habs (by rw [hsum]; exact hz)
  rw [hsum, Complex.norm_real, Real.norm_eq_abs] at this
  exact this

end Sys2Proof.Laws
end

