-- ==== Sys2Proof/Laws/Sine.lean ====
section
/-! SUPPORT. The integer sine of half a turn and its error: the arctangent series and Machin's formula, the Taylor polynomial
of the sine, the rounding (log entry 6). -/

open Finset

namespace Sys2Proof.Machine

theorem abs_cast_div_sub_le (a b : Nat) : |((a / b : Nat) : ℝ) - (a : ℝ) / b| ≤ 1 := by
  rcases Nat.eq_zero_or_pos b with rfl | hb
  · simp
  have h1 : ((a / b : Nat) : ℝ) ≤ (a : ℝ) / b := Nat.cast_div_le
  have h2 : (a : ℝ) / b < ((a / b : Nat) : ℝ) + 1 := by
    rw [div_lt_iff₀ (by positivity)]
    exact_mod_cast Nat.lt_mul_of_div_lt (Nat.lt_succ_self (a / b)) hb
  rw [abs_le]
  constructor <;> linarith

theorem abs_cast_ediv_sub_le (a : Int) {b : Int} (hb : 0 < b) : |((a / b : Int) : ℝ) - (a : ℝ) / b| ≤ 1 := by
  have hb' : (0 : ℝ) < b := by exact_mod_cast hb
  have h1 : ((a / b : Int) : ℝ) ≤ (a : ℝ) / b := by
    rw [le_div_iff₀ hb']; exact_mod_cast Int.ediv_mul_le a hb.ne'
  have h2 : (a : ℝ) / b ≤ ((a / b : Int) : ℝ) + 1 := by
    rw [div_le_iff₀ hb']; exact_mod_cast (Int.lt_ediv_add_one_mul_self a hb).le
  rw [abs_le]
  constructor <;> linarith

/-- The rounded terms of the arctangent series stay within one unit a term of the exact ones. -/
theorem arctanUnits_near_sum (w m n : Nat) :
    |(arctanUnits w m n : ℝ) - 2 ^ w * ∑ i ∈ range n, (-1) ^ i * ((1 / (m : ℝ)) ^ (2 * i + 1) / (2 * i + 1))| ≤ n := by
  induction n with
  | zero => simp [arctanUnits]
  | succ n ih =>
    have hd := abs_cast_div_sub_le (2 ^ w) (m ^ (2 * n + 1) * (2 * n + 1))
    have he : ((2 ^ w : Nat) : ℝ) / ((m ^ (2 * n + 1) * (2 * n + 1) : Nat) : ℝ) =
        2 ^ w * ((1 / (m : ℝ)) ^ (2 * n + 1) / (2 * n + 1)) := by
      push_cast
      rw [one_div, inv_pow]
      simp only [div_eq_mul_inv, mul_inv]
    rw [he] at hd
    rw [sum_range_succ, arctanUnits]
    rcases Nat.even_or_odd n with h | h
    · rw [if_pos (Nat.even_iff.mp h), h.neg_one_pow]
      rw [abs_le] at *
      simp only [Int.cast_add, Int.cast_natCast, Nat.cast_add, Nat.cast_one]
      constructor <;> linarith [ih.1, ih.2, hd.1, hd.2]
    · rw [if_neg (by have := Nat.odd_iff.mp h; omega), h.neg_one_pow]
      rw [abs_le] at *
      simp only [Int.cast_sub, Int.cast_natCast, Nat.cast_add, Nat.cast_one]
      constructor <;> linarith [ih.1, ih.2, hd.1, hd.2]

theorem arctan_near_sum {m : Nat} (hm : 2 ≤ m) (n : Nat) :
    |Real.arctan (1 / (m : ℝ)) - ∑ i ∈ range n, (-1) ^ i * ((1 / (m : ℝ)) ^ (2 * i + 1) / (2 * i + 1))| ≤
      (1 / (m : ℝ)) ^ (2 * n + 1) / (2 * n + 1) := by
  have hm' : (2 : ℝ) ≤ m := by exact_mod_cast hm
  have h0 : (0 : ℝ) < 1 / m := by positivity
  have h1 : 1 / (m : ℝ) < 1 := by rw [div_lt_one (by linarith)]; linarith
  have hs := Real.hasSum_arctan (x := 1 / (m : ℝ)) (by rw [Real.norm_of_nonneg h0.le]; exact h1)
  have hf : Antitone fun i : ℕ => (1 / (m : ℝ)) ^ (2 * i + 1) / (2 * i + 1 : ℝ) := by
    refine antitone_nat_of_succ_le fun i => ?_
    exact div_le_div₀ (by positivity) (pow_le_pow_of_le_one h0.le h1.le (by omega)) (by positivity)
      (by push_cast; linarith)
  have hsum : Summable fun i : ℕ => (1 / (m : ℝ)) ^ (2 * i + 1) / (2 * i + 1 : ℝ) := by
    refine hs.summable.abs.congr fun i => ?_
    rw [abs_div, abs_mul, abs_pow, abs_neg, abs_one, one_pow, one_mul, abs_of_pos (by positivity), abs_of_pos (by positivity)]
    push_cast; rfl
  have he := alternating_series_error_bound _ hf hsum n
  have ht : ∑' i : ℕ, (-1 : ℝ) ^ i * ((1 / (m : ℝ)) ^ (2 * i + 1) / (2 * i + 1 : ℝ)) = Real.arctan (1 / (m : ℝ)) := by
    rw [← hs.tsum_eq]
    congr 1; funext i; push_cast; ring
  rw [ht] at he
  exact he

theorem arctanUnits_near {w m n : Nat} (hm : 2 ≤ m) (h : 2 ^ w ≤ m ^ (2 * n + 1)) :
    |(arctanUnits w m n : ℝ) - 2 ^ w * Real.arctan (1 / (m : ℝ))| ≤ n + 1 := by
  have h1 := arctanUnits_near_sum w m n
  have h2 := arctan_near_sum hm n
  have h3 : (2 : ℝ) ^ w * ((1 / (m : ℝ)) ^ (2 * n + 1) / (2 * n + 1)) ≤ 1 := by
    have : (2 : ℝ) ^ w ≤ (m : ℝ) ^ (2 * n + 1) := by exact_mod_cast h
    have hm0 : (0 : ℝ) < (m : ℝ) ^ (2 * n + 1) := by positivity
    rw [one_div, inv_pow, ← mul_div_assoc, ← div_eq_mul_inv, div_div, div_le_one (by positivity)]
    nlinarith [Nat.cast_nonneg (α := ℝ) n]
  have hw : (0 : ℝ) < 2 ^ w := by positivity
  have h4 := mul_le_mul_of_nonneg_left h2 hw.le
  rw [← abs_of_pos hw, ← abs_mul, abs_of_pos hw, mul_sub] at h4
  rw [abs_le] at *
  constructor <;> linarith [h1.1, h1.2, h4.1, h4.2]

/-- Machin's formula gives π with a stated error. -/
theorem machinPi_near (w : Nat) : |(machinPi w : ℝ) - 2 ^ w * Real.pi| ≤ 5 * w + 40 := by
  have h5 := arctanUnits_near (w := w) (m := 5) (n := w / 4 + 1) (by norm_num)
    (calc 2 ^ w ≤ 2 ^ (2 * (2 * (w / 4 + 1) + 1)) := Nat.pow_le_pow_right (by norm_num) (by omega)
      _ = 4 ^ (2 * (w / 4 + 1) + 1) := by rw [pow_mul]; norm_num
      _ ≤ 5 ^ (2 * (w / 4 + 1) + 1) := Nat.pow_le_pow_left (by norm_num) _)
  have h239 := arctanUnits_near (w := w) (m := 239) (n := w / 12 + 1) (by norm_num)
    (calc 2 ^ w ≤ 2 ^ (7 * (2 * (w / 12 + 1) + 1)) := Nat.pow_le_pow_right (by norm_num) (by omega)
      _ = 128 ^ (2 * (w / 12 + 1) + 1) := by rw [pow_mul]; norm_num
      _ ≤ 239 ^ (2 * (w / 12 + 1) + 1) := Nat.pow_le_pow_left (by norm_num) _)
  have hpi : Real.pi = 16 * Real.arctan (1 / 5) - 4 * Real.arctan (1 / 239) := by
    have := Real.four_mul_arctan_inv_5_sub_arctan_inv_239
    rw [one_div, one_div]; linarith
  have c1 : ((w / 4 + 1 : Nat) : ℝ) ≤ w / 4 + 1 := by push_cast; linarith [Nat.cast_div_le (α := ℝ) (m := w) (n := 4)]
  have c2 : ((w / 12 + 1 : Nat) : ℝ) ≤ w / 12 + 1 := by push_cast; linarith [Nat.cast_div_le (α := ℝ) (m := w) (n := 12)]
  have hw : (0 : ℝ) ≤ w := Nat.cast_nonneg w
  push_cast at h5 h239 c1 c2
  rw [hpi, machinPi]
  push_cast
  rw [abs_le] at *
  constructor <;> linarith [h5.1, h5.2, h239.1, h239.2]

set_option maxRecDepth 4096 in
theorem piHead_eq : piHead = machinPi 216 / 2 ^ 20 := by decide

theorem piHead_near : |(piHead : ℝ) - 2 ^ 196 * Real.pi| ≤ 2 := by
  have h := machinPi_near 216
  have hd := abs_cast_ediv_sub_le (machinPi 216) (b := 2 ^ 20) (by norm_num)
  rw [← piHead_eq] at hd
  push_cast at h hd
  rw [abs_le] at *
  constructor <;> linarith [h.1, h.2, hd.1, hd.2]

/-- The computed π, in units, with its error. -/
theorem piUnits_near (w : Nat) : |(piUnits w : ℝ) - 2 ^ w * Real.pi| ≤ 5 * w + 40 := by
  unfold piUnits
  split
  · rename_i hw
    have h := piHead_near
    have hd := abs_cast_ediv_sub_le piHead (b := 2 ^ (196 - w)) (by positivity)
    have hp : (1 : ℝ) ≤ 2 ^ (196 - w) := one_le_pow₀ (by norm_num)
    have he : (2 : ℝ) ^ 196 = 2 ^ w * 2 ^ (196 - w) := by rw [← pow_add]; congr 1; omega
    push_cast at hd
    have h2 : |(piHead : ℝ) / 2 ^ (196 - w) - 2 ^ w * Real.pi| ≤ 2 := by
      rw [he] at h
      have hq : (piHead : ℝ) / 2 ^ (196 - w) - 2 ^ w * Real.pi =
          ((piHead : ℝ) - 2 ^ w * 2 ^ (196 - w) * Real.pi) / 2 ^ (196 - w) := by field_simp
      rw [hq, abs_div, abs_of_pos (by linarith : (0 : ℝ) < 2 ^ (196 - w))]
      exact (div_le_self (abs_nonneg _) hp).trans h
    have hw0 : (0 : ℝ) ≤ w := Nat.cast_nonneg w
    rw [abs_le] at *
    constructor <;> linarith [h2.1, h2.2, hd.1, hd.2]
  · exact machinPi_near w

/-! The Taylor polynomial -/

theorem taylorTail_snd_pos {a2 b2 : Int} (hb : 0 < b2) (f k : Nat) (hk : 0 < k) : 0 < (taylorTail a2 b2 f k).2 := by
  induction f generalizing k with
  | zero => simp [taylorTail]
  | succ f ih =>
    have h := ih (k + 1) (by omega)
    simp only [taylorTail]
    positivity

theorem taylorTail_eq_sum {a2 b2 : Int} (hb : 0 < b2) (f k : Nat) :
    ((taylorTail a2 b2 f (k + 1)).1 : ℝ) / (taylorTail a2 b2 f (k + 1)).2 =
      ∑ j ∈ range (f + 1), (-1) ^ j * ((a2 : ℝ) / b2) ^ j * ((2 * k + 1).factorial / (2 * (k + j) + 1).factorial) := by
  induction f generalizing k with
  | zero =>
    have : ((2 * k + 1).factorial : ℝ) ≠ 0 := by positivity
    simp [taylorTail, this]
  | succ f ih =>
    have hv : ((taylorTail a2 b2 f (k + 2)).2 : ℝ) ≠ 0 := by
      exact_mod_cast (taylorTail_snd_pos hb f (k + 2) (by omega)).ne'
    have hb' : (b2 : ℝ) ≠ 0 := by exact_mod_cast hb.ne'
    have hr : ((taylorTail a2 b2 (f + 1) (k + 1)).1 : ℝ) / (taylorTail a2 b2 (f + 1) (k + 1)).2 =
        1 - (a2 : ℝ) / b2 / ((2 * k + 2) * (2 * k + 3)) *
          ((taylorTail a2 b2 f (k + 2)).1 / (taylorTail a2 b2 f (k + 2)).2) := by
      have h1 : (2 * (k : ℝ) + 2) ≠ 0 := by positivity
      have h2 : (2 * (k : ℝ) + 3) ≠ 0 := by positivity
      simp only [taylorTail]
      push_cast
      rw [show (2 * ((k : ℝ) + 1)) = 2 * k + 2 by ring, show (2 * (k : ℝ) + 2 + 1) = 2 * k + 3 by ring]
      field_simp
    have hf : ((2 * (k + 1) + 1).factorial : ℝ) = (2 * k + 3) * ((2 * k + 2) * (2 * k + 1).factorial) := by
      rw [show 2 * (k + 1) + 1 = (2 * k + 1) + 1 + 1 by ring, Nat.factorial_succ, Nat.factorial_succ]
      push_cast; ring
    rw [hr, ih (k + 1), sum_range_succ' _ (f + 1), mul_sum, hf]
    have hk : ((2 * k + 1).factorial : ℝ) ≠ 0 := by positivity
    rw [sub_eq_add_neg, ← sum_neg_distrib, add_comm]
    congr 1
    · refine sum_congr rfl fun j _ => ?_
      rw [show 2 * (k + 1 + j) + 1 = 2 * (k + (j + 1)) + 1 by ring]
      have h1 : (2 * (k : ℝ) + 2) ≠ 0 := by positivity
      have h2 : (2 * (k : ℝ) + 3) ≠ 0 := by positivity
      have h3 : ((2 * (k + (j + 1)) + 1).factorial : ℝ) ≠ 0 := by positivity
      generalize (a2 : ℝ) / b2 = z
      field_simp
      ring
    · simp [hk]

theorem sin_near_sum {y : ℝ} (h0 : 0 ≤ y) (h2 : y ≤ 2) (n : Nat) :
    |Real.sin y - ∑ j ∈ range n, (-1) ^ j * (y ^ (2 * j + 1) / (2 * j + 1).factorial)| ≤
      y ^ (2 * n + 1) / (2 * n + 1).factorial := by
  have hs := Real.hasSum_sin y
  have hf : Antitone fun j : ℕ => y ^ (2 * j + 1) / ((2 * j + 1).factorial : ℝ) := by
    refine antitone_nat_of_succ_le fun j => ?_
    have hfac : ((2 * (j + 1) + 1).factorial : ℝ) = (2 * j + 3) * (2 * j + 2) * (2 * j + 1).factorial := by
      rw [show 2 * (j + 1) + 1 = (2 * j + 1) + 1 + 1 by ring, Nat.factorial_succ, Nat.factorial_succ]
      push_cast; ring
    have hfp : (0 : ℝ) < (2 * j + 1).factorial := by positivity
    rw [hfac, div_le_div_iff₀ (by positivity) hfp]
    have hp : 0 ≤ y ^ (2 * j + 1) := by positivity
    have hy : y ^ 2 ≤ (2 * j + 3) * (2 * j + 2) := by nlinarith [Nat.cast_nonneg (α := ℝ) j]
    calc y ^ (2 * (j + 1) + 1) * ((2 * j + 1).factorial : ℝ)
        = y ^ (2 * j + 1) * (y ^ 2 * (2 * j + 1).factorial) := by ring
      _ ≤ y ^ (2 * j + 1) * ((2 * j + 3) * (2 * j + 2) * (2 * j + 1).factorial) := by gcongr
  have hsum : Summable fun j : ℕ => y ^ (2 * j + 1) / ((2 * j + 1).factorial : ℝ) := by
    refine hs.summable.abs.congr fun j => ?_
    rw [abs_div, abs_mul, abs_pow, abs_neg, abs_one, one_pow, one_mul, abs_of_nonneg (by positivity), abs_of_nonneg (by positivity)]
  have he := alternating_series_error_bound _ hf hsum n
  have ht : ∑' j : ℕ, (-1 : ℝ) ^ j * (y ^ (2 * j + 1) / ((2 * j + 1).factorial : ℝ)) = Real.sin y := by
    rw [← hs.tsum_eq]
    congr 1; funext j; ring
  rwa [ht] at he

theorem pow_sixteen_le (m : Nat) : 16 ^ m ≤ 2 ^ 22 * m.factorial := by
  rcases Nat.lt_or_ge m 16 with h | h
  · interval_cases m <;> decide
  · induction m, h using Nat.le_induction with
    | base => decide
    | succ m hm ih =>
      rw [pow_succ, Nat.factorial_succ]
      nlinarith [Nat.factorial_pos m]

theorem taylor_near_sin {w : Nat} {a b : Int} (hb : 0 < b) (h0 : 0 ≤ (a : ℝ) / b) (h2 : (a : ℝ) / b ≤ 2) :
    |2 ^ w * ((a : ℝ) / b * ((taylorTail (a * a) (b * b) (taylorTerms w) 1).1 /
      (taylorTail (a * a) (b * b) (taylorTerms w) 1).2)) - 2 ^ w * Real.sin (a / b)| ≤ 1 := by
  set y : ℝ := (a : ℝ) / b with hy
  have hsum : y * (((taylorTail (a * a) (b * b) (taylorTerms w) 1).1 : ℝ) /
      (taylorTail (a * a) (b * b) (taylorTerms w) 1).2) =
      ∑ j ∈ range (taylorTerms w + 1), (-1) ^ j * (y ^ (2 * j + 1) / (2 * j + 1).factorial) := by
    rw [taylorTail_eq_sum (Int.mul_pos hb hb) _ 0, mul_sum]
    refine sum_congr rfl fun j _ => ?_
    push_cast
    rw [mul_div_mul_comm, ← hy]
    simp only [zero_add, Nat.factorial_one, Nat.cast_one]
    ring
  have hs := sin_near_sum h0 h2 (taylorTerms w + 1)
  have htail : (2 : ℝ) ^ w * (y ^ (2 * (taylorTerms w + 1) + 1) / (2 * (taylorTerms w + 1) + 1).factorial) ≤ 1 := by
    set m := 2 * (taylorTerms w + 1) + 1 with hm
    have hmw : w + 22 ≤ 3 * m := by simp only [hm, taylorTerms]; omega
    have h16 := pow_sixteen_le m
    have hN : 2 ^ w * 2 ^ m ≤ m.factorial := by
      have : 2 ^ 22 * (2 ^ w * 2 ^ m) ≤ 2 ^ 22 * m.factorial := by
        refine le_trans ?_ h16
        rw [show (16 : Nat) = 2 ^ 4 by norm_num, ← pow_mul, ← pow_add, ← pow_add]
        exact Nat.pow_le_pow_right (by norm_num) (by omega)
      exact Nat.le_of_mul_le_mul_left this (by norm_num)
    have hR : (2 : ℝ) ^ w * 2 ^ m ≤ m.factorial := by exact_mod_cast hN
    have hym : y ^ m ≤ 2 ^ m := pow_le_pow_left₀ h0 h2 m
    rw [← mul_div_assoc, div_le_one (by positivity)]
    refine le_trans ?_ hR
    gcongr
  have hw : (0 : ℝ) < 2 ^ w := by positivity
  rw [hsum, ← mul_sub, abs_mul, abs_of_pos hw, abs_sub_comm]
  exact (mul_le_mul_of_nonneg_left hs hw.le).trans htail

theorem pow_large {w : Nat} (h : 64 ≤ w) : 10 * w + 80 ≤ 2 ^ w := by
  induction w, h using Nat.le_induction with
  | base => norm_num
  | succ w hw ih => rw [pow_succ]; omega

/-- The integer sine of the first quarter of a turn, with its error. -/
theorem quarterSine_near {w d x : Nat} (hw : 64 ≤ w) (hd : 0 < d) (hx : 2 * x ≤ d) :
    |(quarterSine w d x : ℝ) - 2 ^ w * Real.sin (Real.pi * x / d)| ≤ (sineError w : ℝ) := by
  have hpi := piUnits_near w
  have hW : (0 : ℝ) < 2 ^ w := by positivity
  have hd' : (0 : ℝ) < d := by exact_mod_cast hd
  have hx' : 2 * (x : ℝ) ≤ d := by exact_mod_cast hx
  have hx0 : (0 : ℝ) ≤ x := Nat.cast_nonneg x
  have hlarge : 10 * (w : ℝ) + 80 ≤ 2 ^ w := by exact_mod_cast pow_large hw
  have h3 := Real.pi_gt_three
  have h315 := Real.pi_lt_d2
  have hxd : (x : ℝ) / d ≤ 1 / 2 := by rw [div_le_div_iff₀ hd' (by norm_num)]; linarith
  have hxd0 : 0 ≤ (x : ℝ) / d := by positivity
  set P : ℝ := (piUnits w : ℝ) with hP
  have hP0 : 0 ≤ P := by nlinarith [(abs_le.mp hpi).1]
  have hP4 : P ≤ 4 * 2 ^ w := by nlinarith [(abs_le.mp hpi).2]
  let a : Int := piUnits w * x
  let b : Int := 2 ^ w * d
  have hb : 0 < b := by positivity
  have hy : (a : ℝ) / b = P / 2 ^ w * (x / d) := by
    simp only [a, b]; push_cast; rw [← hP]; field_simp
  have hq : P / 2 ^ w ≤ 4 := by rw [div_le_iff₀ hW]; exact hP4
  have hq0 : 0 ≤ P / 2 ^ w := by positivity
  have hy0 : 0 ≤ (a : ℝ) / b := by rw [hy]; positivity
  have hy2 : (a : ℝ) / b ≤ 2 := by rw [hy]; nlinarith
  have ht := taylor_near_sin (w := w) hb hy0 hy2
  have hang : |2 ^ w * Real.sin ((a : ℝ) / b) - 2 ^ w * Real.sin (Real.pi * x / d)| ≤ (5 * w + 40) / 2 := by
    rw [← mul_sub, abs_mul, abs_of_pos hW]
    have h1 : |Real.sin ((a : ℝ) / b) - Real.sin (Real.pi * x / d)| ≤ |(a : ℝ) / b - Real.pi * x / d| := 
      Real.abs_sin_sub_sin_le _ _
    have h2 : 2 ^ w * |(a : ℝ) / b - Real.pi * x / d| = |P - 2 ^ w * Real.pi| * (x / d) := by
      rw [← abs_of_pos hW, ← abs_mul, abs_of_pos hW, hy, ← abs_of_nonneg hxd0, ← abs_mul, abs_of_nonneg hxd0]
      congr 1
      field_simp
    calc _ ≤ 2 ^ w * |(a : ℝ) / b - Real.pi * x / d| := by gcongr
      _ = |P - 2 ^ w * Real.pi| * (x / d) := h2
      _ ≤ (5 * w + 40) * (1 / 2) := by gcongr
      _ = _ := by ring
  have hv : 0 < (taylorTail (a * a) (b * b) (taylorTerms w) 1).2 :=
    taylorTail_snd_pos (Int.mul_pos hb hb) _ 1 (by norm_num)
  have hfl : |(quarterSine w d x : ℝ) - 2 ^ w * ((a : ℝ) / b * ((taylorTail (a * a) (b * b) (taylorTerms w) 1).1 /
      (taylorTail (a * a) (b * b) (taylorTerms w) 1).2))| ≤ 1 := by
    have hq : quarterSine w d x = 2 ^ w * a * (taylorTail (a * a) (b * b) (taylorTerms w) 1).1 /
        (b * (taylorTail (a * a) (b * b) (taylorTerms w) 1).2) := rfl
    rw [hq]
    generalize taylorTail (a * a) (b * b) (taylorTerms w) 1 = v at hv
    have he : 2 ^ w * ((a : ℝ) / b * ((v.1 : ℝ) / v.2)) = ((2 ^ w * a * v.1 : Int) : ℝ) / (b * v.2 : Int) := by
      simp only [Int.cast_mul, Int.cast_pow, Int.cast_ofNat]
      rw [div_mul_div_comm, ← mul_div_assoc, mul_assoc]
    rw [he]
    exact abs_cast_ediv_sub_le _ (Int.mul_pos hb hv)
  have hE : (sineError w : ℝ) = 3 * w + 32 := by simp [sineError]
  have hw0 : (0 : ℝ) ≤ w := Nat.cast_nonneg w
  rw [hE]
  rw [abs_le] at *
  constructor <;> linarith [ht.1, ht.2, hang.1, hang.2, hfl.1, hfl.2]

/-- The same for half a turn: the sine of the second quarter mirrors the first's. -/
theorem halfSine_near {w d x : Nat} (hw : 64 ≤ w) (hd : 0 < d) (hx : x ≤ d) :
    |(halfSine w d x : ℝ) - 2 ^ w * Real.sin (Real.pi * x / d)| ≤ (sineError w : ℝ) := by
  unfold halfSine
  split
  · have h := quarterSine_near hw hd (x := d - x) (by omega)
    have hd' : (d : ℝ) ≠ 0 := by positivity
    rwa [Nat.cast_sub hx, show Real.pi * ((d : ℝ) - x) / d = Real.pi - Real.pi * x / d by field_simp, Real.sin_pi_sub] at h
  · exact quarterSine_near hw hd (by omega)

end Sys2Proof.Machine
end

