-- ==== Sys2Proof/Laws/Synth.lean ====
section
/-! SUPPORT. Small laws of the synthesizer: the phase index, the saturation, the exact sums, and which precision settles a sample. -/

namespace Sys2Proof.Machine

/-- A phase index is below the sample rate (R78). -/
theorem phaseIndex_lt {fs : Nat} (h : 0 < fs) (f : Int) (n : Nat) : phaseIndex fs f n < fs := by
  have h1 := Int.emod_nonneg (f * (n : Int)) (b := (fs : Int)) (by omega)
  have h2 := Int.emod_lt_of_pos (f * (n : Int)) (b := (fs : Int)) (by omega)
  simp only [phaseIndex]
  omega

/-- Whole seconds do not move the phase of an integer frequency (R78, R90). -/
theorem phaseIndex_add_mul (fs : Nat) (f : Int) (n k : Nat) : phaseIndex fs f (n + k * fs) = phaseIndex fs f n := by
  have h : f * ((n + k * fs : Nat) : Int) = f * n + f * k * fs := by push_cast; ring
  rw [phaseIndex, h, Int.add_mul_emod_self_right]
  rfl

theorem sat16_eq (z : Int) : sat16 z = max (-32768) (min z 32767) := by
  unfold sat16 clamp
  split
  · omega
  · split <;> omega

theorem sat16_bounds (z : Int) : -32768 ≤ sat16 z ∧ sat16 z ≤ 32767 := by
  rw [sat16_eq]; omega

@[simp] theorem exactSine_zero (fs : Nat) : exactSine fs 0 = some (0, 0) := by simp [exactSine, twelfthSine]

@[simp] theorem exactSum_nil (fs : Nat) : exactSum fs [] = some (0, 0) := rfl

@[simp] theorem quarters_nil (fs : Nat) : quarters fs [] = some 0 := rfl

@[simp] theorem fixedSum_nil (w fs : Nat) : fixedSum w fs [] = 0 := rfl

@[simp] theorem fixedSum_cons (w fs p : Nat) (ps : List Nat) :
    fixedSum w fs (p :: ps) = fixedSine w fs p + fixedSum w fs ps := rfl

/-- 0 is rounded to 0. -/
theorem roundQuot_zero (r : Rounding) {d : Int} (h : 0 ≤ d) : roundQuot r 0 d = 0 := by
  cases r with
  | towardZero => simp [roundQuot]
  | down => simp [roundQuot]
  | nearest =>
    rcases h.eq_or_lt with rfl | hd
    · simp [roundQuot]
    · simpa [roundQuot] using Int.ediv_eq_zero_of_lt h (by omega)

/-- With the real sine and the truncation toward zero, `rounded` is `roundedReal`. -/
theorem rounded_hw (ps : List Nat) (ampl : Int) :
    rounded Config.hw ps ampl = roundedReal .towardZero 48000 ps ampl := rfl

/-- A sum of sines that is the rational number `a/4` gives the rounding exactly. -/
theorem roundedReal_of_quarters {r : Rounding} {fs : Nat} {ps : List Nat} {a : Int} (ampl : Int)
    (h : quarters fs ps = some a) : roundedReal r fs ps ampl = roundQuot r (ampl * a) 4 := by
  simp [roundedReal, h]

/-- Silence: with no tone the ideal value is 0. -/
@[simp] theorem roundedReal_nil (r : Rounding) (fs : Nat) (ampl : Int) : roundedReal r fs [] ampl = 0 := by
  simp [roundedReal_of_quarters ampl (quarters_nil fs), roundQuot_zero]

/-- What `settle` answers is an end of the enclosure at some precision not below the first that settles the rounding, or
the jump at the last. -/
theorem settle_cases (r : Rounding) (fs : Nat) (ps : List Nat) (ampl : Int) (doublings w : Nat) :
    (∃ v, w ≤ v ∧ (roundBounds r v fs ps ampl).1 = (roundBounds r v fs ps ampl).2 ∧
      settle r fs ps ampl doublings w = (roundBounds r v fs ps ampl).1) ∨
    settle r fs ps ampl doublings w = settle r fs ps ampl 0 (w * 2 ^ doublings) := by
  induction doublings generalizing w with
  | zero => exact .inr (by simp)
  | succ d ih =>
    by_cases h : (roundBounds r w fs ps ampl).1 = (roundBounds r w fs ps ampl).2
    · exact .inl ⟨w, le_refl w, h, by simp [settle, h]⟩
    · have hs : settle r fs ps ampl (d + 1) w = settle r fs ps ampl d (2 * w) := by simp [settle, h]
      rw [hs]
      rcases ih (2 * w) with ⟨v, hv, he, hr⟩ | hr
      · exact .inl ⟨v, by omega, he, hr⟩
      · exact .inr (by rw [hr, pow_succ]; ring_nf)

end Sys2Proof.Machine
end

