-- ==== Sys2Proof/Machine/Assembler.lean ====
section
/-! DEFINITION. The textual form of one operation, 30_encoding.md rule R56, as a function from a line of characters to the
operation (log entry 22). -/

namespace Sys2Proof.Machine

/-- The words, quoted characters and commas of a line. -/
inductive Token where
  | word (cs : List Char)
  | quoted (c : Char)
  | comma
  deriving DecidableEq, Repr

/-- The token that the characters read so far (last first) make, if any. -/
def flushWord (rev : List Char) : List Token := if rev = [] then [] else [.word rev.reverse]

/-- The tokens of a line, up to its end or to a comment (R56). -/
def lexLine : List Char → List Char → List Token
  | rev, [] => flushWord rev
  | rev, '\'' :: c :: '\'' :: rest => flushWord rev ++ .quoted c :: lexLine [] rest
  | rev, c :: rest =>
    if c = ';' then flushWord rev
    else if c = ',' then flushWord rev ++ .comma :: lexLine [] rest
    else if c = ' ' then flushWord rev ++ lexLine [] rest
    else lexLine (c :: rev) rest

/-- The value of a digit of the given base. -/
def digitValue (base : Nat) (c : Char) : Option Nat :=
  let n := c.toNat
  let v := if 48 ≤ n ∧ n ≤ 57 then n - 48
    else if 65 ≤ n ∧ n ≤ 70 then n - 55
    else if 97 ≤ n ∧ n ≤ 102 then n - 87
    else base
  if v < base then some v else none

/-- The value of digits after a value already read. -/
def digitsValue (base : Nat) : Nat → List Char → Option Nat
  | acc, [] => some acc
  | acc, c :: cs =>
    match digitValue base c with
    | some d => digitsValue base (acc * base + d) cs
    | none => none

/-- A number of R10: decimal, `0x` hexadecimal or `0b` binary. -/
def natOperand : List Char → Option Nat
  | [] => none
  | '0' :: 'x' :: c :: cs => digitsValue 16 0 (c :: cs)
  | '0' :: 'b' :: c :: cs => digitsValue 2 0 (c :: cs)
  | c :: cs => digitsValue 10 0 (c :: cs)

/-- SETAMP's decimal operand with its sign (R56); the range is `Instr.wellFormed`'s. -/
def intOperand : List Char → Option Int
  | '-' :: c :: cs => (digitsValue 10 0 (c :: cs)).map fun n => -(n : Int)
  | c :: cs => (digitsValue 10 0 (c :: cs)).map fun n => (n : Int)
  | [] => none

/-- An unsigned operand of `n` bits; one outside the range is refused (R56). -/
def fieldOperand (n : Nat) (cs : List Char) : Option (BitVec n) :=
  match natOperand cs with
  | some v => if v < 2 ^ n then some (BitVec.ofNat n v) else none
  | none => none

/-- A symbol operand: a quoted character, which stands for its ASCII code (R10), or a number (R56). DESIGN CHOICE (log
entry 22): a quoted character outside ASCII is refused, since R10 gives it no code. -/
def symbolOperand : Token → Option Symbol
  | .quoted c => if c.toNat < 128 then some (BitVec.ofNat 8 c.toNat) else none
  | .word cs => fieldOperand 8 cs
  | .comma => none

/-- The kinds of R56. -/
def kindOf (cs : List Char) (dial ring busy : Instr) : Option Instr :=
  if cs = ['D', 'I', 'A', 'L'] then some dial
  else if cs = ['R', 'I', 'N', 'G'] then some ring
  else if cs = ['B', 'U', 'S', 'Y'] then some busy
  else none

/-- The operation with the given upper-case mnemonic and operand tokens (R56). -/
def assembleTokens (mnemonic : List Char) (operands : List Token) : Option Instr :=
  match operands with
  | [arg] =>
    if mnemonic = ['P', 'R', 'E', 'S', 'S', 'D'] then (symbolOperand arg).map .pressd
    else if mnemonic = ['R', 'E', 'L', 'D'] then (symbolOperand arg).map .reld
    else match arg with
      | .word cs =>
        if mnemonic = ['P', 'R', 'E', 'S', 'S', 'M'] then kindOf cs .pressmDial .pressmRing .pressmBusy
        else if mnemonic = ['R', 'E', 'L', 'M'] then kindOf cs .relmDial .relmRing .relmBusy
        else if mnemonic = ['S', 'E', 'T', 'A', 'M', 'P'] then (intOperand cs).map .setamp
        else if mnemonic = ['K', 'E', 'Y', 'D', 'N'] then (fieldOperand 20 cs).map .keydn
        else if mnemonic = ['K', 'E', 'Y', 'U', 'P'] then (fieldOperand 20 cs).map .keyup
        else if mnemonic = ['R', 'E', 'N', 'D', 'E', 'R'] then (fieldOperand 20 cs).map .render
        else none
      | .quoted _ | .comma => none
  | [.word key, .comma, sym] =>
    if mnemonic = ['B', 'I', 'N', 'D', 'K', 'E', 'Y'] then
      match fieldOperand 20 key, symbolOperand sym with
      | some k, some y => some (.bindkey k y)
      | _, _ => none
    else none
  | _ => none

/-- One line of a listing: the operation it names, refused when it is not of the form of R56 or an operand is
outside its range. -/
def assembleLine (line : List Char) : Option Instr :=
  match lexLine [] line with
  | .word mnemonic :: operands =>
    match assembleTokens mnemonic operands with
    | some i => if i.wellFormed then some i else none
    | none => none
  | _ => none

end Sys2Proof.Machine
end

