-- ==== Sys2Proof/Tests/Slice0.lean ====
section
/-! SUPPORT. Tests, each with its source in spec/, and for every statement with hypotheses a witness that meets them. -/

namespace Sys2Proof.Tests

open Sys2Proof Sys2Proof.Machine Sys2Proof.Statements

/-! Helpers -/

/-- The next state of an outcome. -/
def nextOf (o : Host.Outcome State Fault Refusal) : Option State :=
  match o with
  | .next t => some t
  | .fault _ | .refused _ => none

/-- `nextOf` of an operation, looked at through one field. -/
def after {α : Type} (i : Instr) (s : State) (field : State → α) : Option α := (nextOf (exec i s)).map field

/-- The state after events, looked at through one field. -/
def afterEvents {α : Type} (es : List Input) (s : State) (field : State → α) : Option α :=
  (nextOf (execInputs es s)).map field

/-- `DigitActive`, `'5'`: the state before of most rows of V-PRESSD and V-RELD. -/
def digitFive : State :=
  { State.reset with mode := .digitActive, freq := { lo := 770, hi := 1336 }, lastsym := some 0x35 }

/-- `DialTone` at amplitude 10000 with a given clock (V-RENDER). -/
def dialAt (n : BitVec 64) : State := { State.reset with mode := .dialTone, ampl := 10000, sclk := n }

/-- `'1'` on key 97, `'2'` on key 98, `'Z'` on key 5 (V-KEYS). -/
def boundKeys : State := { State.reset with keymap := [(5, 0x5A), (97, 0x31), (98, 0x32)] }

/-- A block of four frames of the dial tone after its first sample. -/
def midBlock : State :=
  { dialAt 0 with
    snap := { mode := .dialTone, freq := { lo := 0, hi := 0 }, ampl := 10000 }
    block := some { base := 0, frames := 4, produced := 1 }
    pcm := [0] }

/-! WellFormed: the range of SETAMP (R50), which the check refuses on both sides -/

theorem test_wellFormed_refuses_setamp_above : (Instr.setamp 524288).wellFormed = false := by decide
theorem test_wellFormed_refuses_setamp_below : (Instr.setamp (-524289)).wellFormed = false := by decide
theorem test_wellFormed_takes_setamp_ends :
    (Instr.setamp 524287).wellFormed = true ∧ (Instr.setamp (-524288)).wellFormed = true := by decide

/-! Decoding: words written bit by bit from the encodings of spec/opcode_table.json and R56 -/

theorem test_decode_pressd : decode .control 0b0001_00110101_00000000000000000000 = .ok (.pressd 0x35) := by rfl
theorem test_decode_reld : decode .control 0b0010_11111111_00000000000000000000 = .ok (.reld 0xFF) := by rfl
theorem test_decode_pressm_dial : decode .control 0b0011_00000010_00000000000000000000 = .ok .pressmDial := by rfl
theorem test_decode_pressm_ring : decode .control 0b0011_00000011_00000000000000000000 = .ok .pressmRing := by rfl
theorem test_decode_pressm_busy : decode .control 0b0011_00000100_00000000000000000000 = .ok .pressmBusy := by rfl
theorem test_decode_relm_dial : decode .control 0b0100_00000010_00000000000000000000 = .ok .relmDial := by rfl
theorem test_decode_relm_ring : decode .control 0b0100_00000011_00000000000000000000 = .ok .relmRing := by rfl
theorem test_decode_relm_busy : decode .control 0b0100_00000100_00000000000000000000 = .ok .relmBusy := by rfl
theorem test_decode_setamp : decode .control 0b0101_00000000_11111111111111111001 = .ok (.setamp (-7)) := by rfl
theorem test_decode_bindkey : decode .control 0b0110_00110001_00000000000001100001 = .ok (.bindkey 97 0x31) := by rfl
theorem test_decode_keydn : decode .control 0b0111_00000000_11111111111111111111 = .ok (.keydn 1048575) := by rfl
theorem test_decode_keyup : decode .control 0b1000_00000000_00000000000001100001 = .ok (.keyup 97) := by rfl
theorem test_decode_render : decode .audio 0b1001_00000000_00000000100000000000 = .ok (.render 2048) := by rfl

/-- The illegal words that end R57, each beside its reason in R52. -/
theorem test_decode_illegal :
    decode .control 0x00000000 = .error .undefinedOp ∧ decode .control 0xA0000000 = .error .undefinedOp ∧
    decode .control 0x13500001 = .error .mustBeZero ∧ decode .control 0x30100000 = .error .undefinedKind ∧
    decode .control 0x30500000 = .error .undefinedKind ∧ decode .control 0x50102710 = .error .mustBeZero ∧
    decode .control 0x70100061 = .error .mustBeZero ∧ decode .audio 0x90100800 = .error .mustBeZero ∧
    decode .control 0x90000800 = .error .wrongPort ∧ decode .audio 0x13500000 = .error .wrongPort := by
  refine ⟨rfl, rfl, rfl, rfl, rfl, rfl, rfl, rfl, rfl, rfl⟩

/-- Encodings of R57. -/
theorem test_encode :
    encode (.setamp (-524288)) = 0x50080000 ∧ encode (.bindkey 97 0x31) = 0x63100061 ∧
    encode (.render 2048) = 0x90000800 ∧ encode .relmBusy = 0x40400000 := by decide

theorem test_decodeTableWord :
    decodeTableWord 32 0x90000004 = some (.render 4) ∧ decodeTableWord 32 0x63100061 = some (.bindkey 97 0x31) ∧
    decodeTableWord 32 0 = none := by
  refine ⟨rfl, rfl, rfl⟩

/-! Assembler: lines of R57 and Part 3 of 95_test_vectors.md, and a refused operand (R56) -/

theorem test_assemble_press : assembleLine ['P', 'R', 'E', 'S', 'S', 'D', ' ', '\'', '5', '\''] = some (.pressd 0x35) := by
  decide
theorem test_assemble_bind :
    assembleLine ['B', 'I', 'N', 'D', 'K', 'E', 'Y', ' ', '9', '7', ',', ' ', '0', 'x', '3', '1', ' ', ';', 'k'] =
      some (.bindkey 97 0x31) := by decide
theorem test_assemble_setamp_negative :
    assembleLine ['S', 'E', 'T', 'A', 'M', 'P', ' ', '-', '7'] = some (.setamp (-7)) := by decide
theorem test_assemble_refuses_non_ascii :
    assembleLine ['R', 'E', 'L', 'D', ' ', '\'', 'é', '\''] = none := by decide
theorem test_assemble_refuses_range :
    assembleLine ['R', 'E', 'N', 'D', 'E', 'R', ' ', '1', '0', '4', '8', '5', '7', '6'] = none := by decide

/-! Operations: rows of V-PRESSD, V-RELD, V-PRESSM, V-SETAMP, V-KEYS, V-RENDER -/

theorem test_pressd_seven : after (.pressd 0x37) State.reset (fun t => (t.mode, t.freq, t.lastsym)) =
    some (.digitActive, { lo := 852, hi := 1209 }, some 0x37) := by decide
theorem test_pressd_undefined : nextOf (exec (.pressd 0x5A) digitFive) = some { digitFive with fault := .unknownSymbol } := by
  decide
theorem test_reld_other_symbol : nextOf (exec (.reld 0x39) digitFive) = some { digitFive with mode := .idle } := by decide
theorem test_reld_match_policy :
    releaseDigit .onMatch 0x39 digitFive = digitFive ∧ (releaseDigit .onMatch 0x35 digitFive).mode = .idle := by decide
theorem test_pressm_dial : after .pressmDial digitFive (·.mode) = some .dialTone := by decide
theorem test_pressm_ring : after .pressmRing digitFive (fun t => (t.mode, t.lastsym)) = some (.ringTone, some 0x35) := by
  decide
theorem test_pressm_busy : after .pressmBusy digitFive (·.mode) = some .busyTone := by decide
theorem test_relm_dial : after .relmDial (dialAt 0) (·.mode) = some .idle := by decide
theorem test_relm_ring_from_dial : after .relmRing (dialAt 0) (·.mode) = some .idle := by decide
theorem test_relm_busy_from_digit : after .relmBusy digitFive (·.mode) = some .idle := by decide
theorem test_setamp_negative : after (.setamp (-1)) State.reset (·.ampl) = some 0 := by decide
theorem test_setamp_above :
    after (.setamp 10001) State.reset (·.ampl) = some 10000 ∧
      after (.setamp 9999) State.reset (·.ampl) = some 9999 := by decide
theorem test_bindkey_overwrites :
    after (.bindkey 97 0x33) boundKeys (·.keymap) = some [(5, 0x5A), (97, 0x33), (98, 0x32)] := by decide
theorem test_bindkey_between :
    after (.bindkey 6 0xFF) boundKeys (·.keymap) = some [(5, 0x5A), (6, 0xFF), (97, 0x31), (98, 0x32)] := by decide
theorem test_keydn_bound : after (.keydn 98) boundKeys (fun t => (t.mode, t.freq, t.lastsym)) =
    some (.digitActive, { lo := 697, hi := 1336 }, some 0x32) := by decide
theorem test_keydn_undefined_and_unbound :
    nextOf (exec (.keydn 5) boundKeys) = some { boundKeys with fault := .unknownSymbol } ∧
      nextOf (exec (.keydn 6) boundKeys) = some boundKeys := by decide
theorem test_keyup_other_symbol :
    nextOf (exec (.keyup 97) { boundKeys with mode := .digitActive, lastsym := some 0x32 }) =
      some { boundKeys with mode := .digitActive, lastsym := some 0x32 } := by decide
theorem test_keyup_from_dial_tone :
    after (.keyup 97) { boundKeys with mode := .dialTone, lastsym := some 0x31 } (·.mode) = some .idle := by decide

/-- V-RENDER, the seam of R130: indices 2^64-2, 2^64-1, 0, 1. -/
theorem test_render_wraps : after (.render 4) (dialAt 0xFFFFFFFFFFFFFFFE) (fun t => (t.pcm.map BitVec.toInt, t.sclk)) =
    some ([9999, 9987, 0, 556], 2) := by decide

/-- V-RENDER: `DigitActive` (852, 1209) at amplitude 5000. -/
theorem test_render_digit :
    after (.render 3) { State.reset with mode := .digitActive, freq := { lo := 852, hi := 1209 } }
      (fun t => t.pcm.map BitVec.toInt) = some [0, 1344, 2662] := by decide

/-! The synthesizer: V-SYNTH, E2, E3, E4 -/

theorem test_synth_exact :
    synth Config.hw .dialTone 0 0 10000 160 = 5000 ∧ synth Config.hw .dialTone 0 0 3 1120 = -1 ∧
    synth Config.hw .dialTone 0 0 1 1120 = 0 ∧ synth Config.hw .digitActive 697 1209 10000 36000 = -20000 := by decide
theorem test_synth_approx :
    synth Config.hw .digitActive 941 1633 10000 1 = 3350 ∧ synth Config.hw .digitActive 770 1336 10000 100 = -15869 ∧
    synth Config.hw .dialTone 0 0 10000 1000000000000 = -8660 := by decide
theorem test_synth_saturates :
    synth Config.hw .digitActive 697 1209 16384 12000 = 32767 ∧
    synth Config.hw .digitActive 697 1209 20000 36000 = -32768 := by decide
theorem test_ring_edges :
    synth Config.hw .ringTone 0 0 10000 47999 = -556 ∧ synth Config.hw .ringTone 0 0 10000 48480 = 0 ∧
    synth Config.hw .ringTone 0 0 10000 240001 = 556 := by decide
theorem test_busy_edges :
    synth Config.hw .busyTone 0 0 10000 23999 = 556 ∧ synth Config.hw .busyTone 0 0 10000 24001 = 0 ∧
    synth Config.hw .busyTone 0 0 10000 48001 = 556 := by decide

/-- The sum `sin 18° + sin 306° = -1/2` of the symbol `#` at n = 2400, by R77 and the values of those sines: -5000. -/
theorem test_synth_rational_sum : synth Config.hw .digitActive 941 1477 10000 2400 = -5000 := by decide

set_option maxRecDepth 4096 in
/-- R86 and R87 far beyond the registers: opposite phases cancel, and values by 115-digit arithmetic from R77. -/
theorem test_roundedReal_large :
    roundedReal .towardZero 48000 [1, 47999] (10 ^ 20) = 0 ∧
    roundedReal .towardZero 48000 [1] 10000000000000000000000 = 1308996935257529029 ∧
    roundedReal .towardZero 48000 [1, 2] (-(10 ^ 20)) = -39269907833432782 := by decide

set_option maxRecDepth 4096 in
/-- R79: the last precision alone finds the exact values `2·sin 30° = 1` and `2·sin 210° = -1`, without the tables. -/
theorem test_settle_last : settle .towardZero 12 [1] 2 0 250 = 1 ∧ settle .towardZero 12 [7] 2 0 250 = -1 := by decide

/-! Events, steps, outputs -/

/-- V-RENDER, the transition inside a block: `RELM DIAL` after the block start is heard in the next block only. -/
theorem test_control_inside_block :
    afterEvents [.blockStart 0x90000002, .word .control 0x40200000, .sample, .sample, .word .audio 0x90000002] (dialAt 0)
      (fun t => (t.pcm.map BitVec.toInt, t.sclk)) = some ([0, 556, 0, 0], 4) := by decide

/-- R103: with nothing more to come the block in progress produces its next sample. -/
theorem test_block_goes_on : (nextOf (stepWith Config.hw (fun _ => none) midBlock)).map (fun t => (t.pcm.map BitVec.toInt, t.block)) =
    some ([0, 556], some { base := 0, frames := 4, produced := 2 }) := by decide

/-- V-RESET: a reset inside a block. -/
theorem test_reset_inside_block : nextOf (step (midBlock.setPresented (some .reset))) = some { State.reset with time := 1 } := by decide

/-- V-DECODE: SETAMP on the audio port. -/
theorem test_illegal_on_audio :
    nextOf (step (State.reset.setPresented (some (.word .audio 0x50002710)))) =
      some { State.reset with fault := .illegalCommand, time := 1 } := by decide

/-- V-FAULT: the first fault is kept, and the status output shows it. -/
theorem test_fault_is_sticky :
    afterEvents [.word .control 0x15A00000, .word .control 0x30100000] State.reset faultOutput = some 1 := by decide

/-- R54, R49: the word of an opcode-table row is run by the very next step. -/
theorem test_withFetchWord : (nextOf (step (State.reset.withFetchWord 32 0x50002710))).map (·.ampl) = some 10000 := by
  decide

/-- The hardware with `SNAP_ATOMIC` false and all else the same. -/
def splitHw : Config := { Config.hw with snapAtomic := false }

/-- V-ORDER, the paragraph on SNAP_ATOMIC false: the press of `5` caught between its two writes. -/
theorem test_split_half_press :
    (nextOf (execInputsWith splitHw
      [.word .control 0x13500000, .blockStart 0x90000001, .read .mode, .read .freq, .read .ampl]
      { dialAt 0 with freq := { lo := 697, hi := 1209 } })).map (·.snap) =
      some { mode := .dialTone, freq := { lo := 770, hi := 1336 }, ampl := 10000 } := by decide

/-- R42 (b): no sample before the three reads. -/
theorem test_split_sample_waits : execInputsWith splitHw [.blockStart 0x90000001, .read .freq, .sample] (dialAt 0) =
    .fault .splitOrder := by rfl

/-- R8 `ROUND`: the three ways on -7/2, by their definitions. -/
theorem test_roundQuot : roundQuot .towardZero (-7) 2 = -3 ∧ roundQuot .down (-7) 2 = -4 ∧
    roundQuot .nearest (-7) 2 = -4 ∧ roundQuot .nearest 5 4 = 1 := by decide

/-- R87 `SINFN`: a sine table of four phases in hundredths, where the real sine would be 1. -/
theorem test_sine_table :
    synth { Config.hw with fs := 4, sinFn := .table 100 [0, 99, 0, -99] } .digitActive 1 1 1000 1 = 1980 := by decide

theorem test_codes :
    Mode.code .busyTone = 4 ∧ FaultCode.code .illegalCommand = 2 ∧ Config.hw.fs = 48000 := by decide

/-- R34, D6, D8: this hardware's values are ones the spec allows. -/
theorem test_config_ok : Config.hw.ok := by decide

/-! Witnesses: concrete states and operands that meet the hypotheses of the statements -/

theorem witness_pressd :
    lookup Config.hw 0x44 = some { lo := 941, hi := 1633 } ∧ lookup Config.hw 0x61 = none ∧
      lookup Config.hw 0x00 = none ∧ lookup Config.hw 0xFF = none := by decide
theorem witness_lookup_other : ∀ row ∈ matrixRows, row.1 ≠ 0x5A := by simp [matrixRows]
theorem witness_reld_match : digitFive.lastsym = some 0x35 ∧ State.reset.lastsym ≠ some 0x35 := by decide
theorem witness_keydn :
    boundKeys.keymap.read (6 : KeyCode).toNat = none ∧ boundKeys.keymap.read (97 : KeyCode).toNat = some 0x31 ∧
      lookup Config.hw 0x31 = some { lo := 697, hi := 1209 } ∧
      boundKeys.keymap.read (5 : KeyCode).toNat = some 0x5A ∧ lookup Config.hw 0x5A = none := by decide
theorem witness_keyup_match :
    boundKeys.keymap.read (97 : KeyCode).toNat = some 0x31 ∧
      ({ boundKeys with lastsym := some 0x31 } : State).lastsym = some 0x31 := by decide
theorem witness_keyup_no_match : ∀ sym, boundKeys.keymap.read (97 : KeyCode).toNat = some sym → boundKeys.lastsym ≠ some sym := by
  decide
theorem witness_control_port : (Instr.keyup 0).port = .control := by decide
theorem witness_render :
    (dialAt 0xFFFFFFFFFFFFFFFF).block = none ∧ (0 : Nat) < (1048575 : BitVec 20).toNat ∧
      (0 : Nat) < ({ dialAt 0 with pcm := [0] } : State).pcm.length := by decide
theorem witness_overlap : midBlock.block = some { base := 0, frames := 4, produced := 1 } := by decide
theorem witness_overlap_stops : exec (.render 0) midBlock = .fault .renderOverlap := by rfl
theorem witness_splitting :
    (dialAt 5).block = none ∧ [(3 : BitVec 20), 0, 1048572] ≠ [] ∧
      ([(3 : BitVec 20), 0, 1048572].map BitVec.toNat).sum < 2 ^ 20 := by decide
theorem witness_block_events :
    (dialAt 0).block = none ∧
      ([.word .control 0x40200000, .sample, .sample, .word .control 0] : List Input).count .sample = (2 : BitVec 20).toNat := by
  decide
theorem witness_inside_block : ∀ e ∈ ([.word .control 0x40200000, .sample, .word .control 0] : List Input), insideBlock e := by
  intro e he
  simp only [List.mem_cons, List.not_mem_nil, or_false] at he
  rcases he with rfl | rfl | rfl
  · exact .inr ⟨_, rfl⟩
  · exact .inl rfl
  · exact .inr ⟨_, rfl⟩
theorem witness_samples_independent : (nextOf (exec (.render 1) (dialAt 1))).isSome = true := by decide
theorem witness_short_press : State.reset.block = none ∧ State.reset.mode = .idle := by decide
theorem witness_audio_event : (nextOf (execInput .sample midBlock)).isSome = true ∧
    (nextOf (execInput (.word .audio 0) midBlock)).isSome = true ∧
    (nextOf (execInput (.blockStart 0x90000001) (dialAt 0))).isSome = true := by decide
theorem witness_press_writes :
    (nextOf (execInput (.word .control 0x13500000) State.reset)).map (fun t => (t.freq, t.lastsym)) =
        some ({ lo := 770, hi := 1336 }, some 0x35) ∧
      (nextOf (execInput (.word .control 0x70000061) boundKeys)).map (·.freq) = some { lo := 697, hi := 1209 } := by decide
theorem witness_setamp_and_bindkey_write :
    (nextOf (execInput (.word .control 0x50002710) State.reset)).map (·.ampl) = some 10000 ∧
      (nextOf (execInput (.word .control 0x63100061) State.reset)).map (·.keymap) = some [(97, 0x31)] := by decide

/-- Each case of R52 at the ends of its range, on the ports where it holds. -/
theorem witness_illegal_words :
    illegalWord .control 0x00000000 ∧ illegalWord .audio 0xA0000000 ∧ illegalWord .control 0xFFFFFFFF ∧
    illegalWord .control 0x10000001 ∧ illegalWord .control 0x401FFFFF ∧ illegalWord .audio 0x90100000 ∧
    illegalWord .control 0x30100000 ∧ illegalWord .control 0x40500000 ∧ illegalWord .control 0x90000000 ∧
    illegalWord .audio 0x10000000 ∧ illegalWord .audio 0x80000000 := by
  simp [illegalWord]
theorem witness_legal_words : ¬ illegalWord .control 0x1FF00000 ∧ ¬ illegalWord .control 0x6FFFFFFF ∧
    ¬ illegalWord .control 0x30400000 ∧ ¬ illegalWord .audio 0x900FFFFF := by
  simp [illegalWord]
theorem witness_exec_writes_fault : after (.pressd 0x00) State.reset (·.fault) = some .unknownSymbol ∧
    State.reset.fault = .noFault := by decide
theorem witness_first_fault :
    (nextOf (execInput (.word .control 0) { State.reset with fault := .unknownSymbol })).map (·.fault) =
      some .unknownSymbol := by decide
theorem witness_faulting_word :
    (nextOf (execWord .audio 0x13500000 midBlock)).map (·.fault) = some .illegalCommand ∧
      midBlock.fault = .noFault := by decide
theorem witness_event_completes : (nextOf (execInput .reset midBlock)).isSome = true := by decide
theorem witness_wellFormed : (Instr.setamp (-524288)).wellFormed = true ∧ (Instr.render 1048575).wellFormed = true := by
  decide
theorem witness_decodes : decode .control 0x6FFFFFFF = .ok (.bindkey 1048575 0xFF) := by rfl
theorem witness_step :
    nextInput (fun _ => none) (State.reset.setPresented (some (.word .audio 0x90000001))) = some (.word .audio 0x90000001) ∧
      nextInput (fun _ => some (.word .audio 0x90000001)) State.reset = some (.word .audio 0x90000001) ∧
      decode .audio 0x90000001 = .ok (.render 1) := ⟨rfl, rfl, rfl⟩
theorem witness_no_event : nextInput (fun _ => none) State.reset = none ∧ State.reset.block = none := ⟨rfl, rfl⟩
theorem witness_block_runs : midBlock.block = some { base := 0, frames := 4, produced := 1 } ∧
    ({ base := 0, frames := 4, produced := 1 } : Block).produced < 4 ∧ midBlock.presented = none ∧
    (∀ i < 2, ∃ w, (fun n => if n < 2 then some (Input.word .control 0) else none) (midBlock.time + i) =
      some (.word .control w)) ∧
    ∀ i ≥ 2, (fun n => if n < 2 then some (Input.word .control 0) else none) (midBlock.time + i) = none := by
  refine ⟨by decide, by decide, by decide, fun i h => ⟨0, ?_⟩, fun i h => ?_⟩
  · simp [midBlock, dialAt]; omega
  · simp [midBlock, dialAt]; omega
theorem witness_table_word : decodeTableWord 32 0x40400000 = some .relmBusy := by rfl
theorem witness_reset_event : nextInput (fun _ => none) (midBlock.setPresented (some .reset)) = some .reset := rfl
theorem witness_outstanding : midBlock.outstanding = .nothing ∧
    (nextOf (step (midBlock.setPresented (some (.word .control 0x13500000))))).isSome = true := by decide

theorem digitFive_signalInv : SignalInv digitFive where
  ampl_bound := by decide
  freq_legal := by decide
  lastsym_defined := fun y h => by cases h; decide
  digit_pair := fun _ => ⟨0x35, by decide⟩

/-- A digit sounds, a press of another is to come: the hypotheses of SignalInvariantIsKept. -/
theorem witness_signal_invariant : SignalInv (digitFive.setPresented (some (.word .control 0x13100000))) ∧
    (nextOf (step (digitFive.setPresented (some (.word .control 0x13100000))))).isSome = true :=
  ⟨⟨digitFive_signalInv.ampl_bound, digitFive_signalInv.freq_legal, digitFive_signalInv.lastsym_defined,
    digitFive_signalInv.digit_pair⟩, by decide⟩

theorem witness_snapshot_invariant : SnapInv digitFive := ⟨by decide, by decide, by decide⟩
theorem witness_keymap_canonical : boundKeys.keymap.wf ∧
    (nextOf (step (boundKeys.setPresented (some (.word .control 0x6FF00006))))).isSome = true := by decide

/-- A block in progress with its next sample to come: the hypotheses of SampleClockCountsTheSamples. -/
theorem witness_clock : ClockInv (midBlock.setPresented (some .sample)) ∧
    (nextOf (step (midBlock.setPresented (some .sample)))).isSome = true := by
  refine ⟨⟨fun b h => ?_, by decide⟩, by decide⟩
  cases h
  decide

theorem witness_unsaturated : SignalInv (midBlock.setPresented (some .sample)) ∧ SnapInv (midBlock.setPresented (some .sample)) ∧
    pcmUnsaturated (midBlock.setPresented (some .sample)) ∧ (nextOf (step (midBlock.setPresented (some .sample)))).isSome = true := by
  refine ⟨⟨by decide, .inl rfl, fun _ h => (nomatch h), fun h => (nomatch h)⟩,
    ⟨by decide, .inl rfl, by decide⟩,
    fun w hw => ?_, by decide⟩
  rw [List.mem_singleton.mp hw]
  decide

/-- A run from reset that delivers a sample. -/
theorem witness_reachable : ∃ s, Reachable s ∧ s.pcm = [0] := by
  have h : stepWith Config.hw (fun _ => some (.word .audio 0x90000001)) State.reset =
      .next (renderBlock Config.hw 1 (consumed State.reset)) := rfl
  exact ⟨_, .step .start h, by decide⟩

theorem witness_exact_sine : exactSine 48000 44000 = some (-2, 0) ∧ exactSine 48000 45600 = some (1, -1) ∧
    exactSine 48000 0 = some (0, 0) := by decide
theorem witness_opposite : quarters 48000 [1, 47999] = some 0 ∧ quarters 48000 [2400, 40800] = some (-2) := by decide

/-- The parameters of the statements about every configuration, met by this hardware's. -/
theorem witness_config : 0 < Config.hw.fs ∧ Config.hw.sinFn = .real ∧ 0 < Config.hw.ringPeriodS ∧ 0 < Config.hw.busyPeriodS ∧
    0 < Config.hw.busyOnDen := by decide

/-- One tone a quarter turn on at `fs` 4 and amplitude 1: twice the ideal value is 2, which is not 1. -/
theorem witness_separation : separationBits 4 [1] 1 ≤ 144 ∧
    |(1 : Int)| ≤ 2 * (([1] : List Nat).length * |(1 : Int)| + 1) ∧
    2 * (((1 : Int) : ℝ) * Ideal.sineSum 4 [1]) ≠ ((1 : Int) : ℝ) := by
  refine ⟨by decide, by decide, ?_⟩
  have h : (2 : ℝ) * Real.pi * ((1 : Nat) : ℝ) / ((4 : Nat) : ℝ) = Real.pi / 2 := by push_cast; ring
  simp only [Ideal.sineSum, List.map_cons, List.map_nil, List.sum_cons, List.sum_nil]
  rw [h, Real.sin_pi_div_two]
  norm_num
theorem witness_modes : Mode.busyTone ≠ .digitActive ∧ Mode.busyTone ≠ .ringTone ∧ Mode.dialTone ≠ .ringTone ∧
    Mode.dialTone ≠ .busyTone := by decide
theorem witness_precision : 64 ≤ 80 ∧ 0 < 48000 ∧ 47999 < 48000 := by decide
theorem witness_sign : Ideal.value Config.hw .idle 0 0 1 1 = 0 := rfl
theorem witness_off : 48000 ≤ 239999 % 240000 ∧ 48000 ≤ 48000 % 240000 ∧ 24000 ≤ 24000 % 48000 ∧
    24000 ≤ 47999 % 48000 := by decide
theorem witness_pressWord : Statements.pressWord 0x13500000 0x35 State.reset ∧
    Statements.pressWord 0x70000061 0x35 (State.reset.setKeymap [(97, 0x35)]) :=
  ⟨.inl (by decide), .inr ⟨97, by decide, by decide⟩⟩

theorem witness_split : splitHw.snapAtomic = false ∧ State.reset.block = none ∧
    State.reset.outstanding.modeWrite = false ∧ State.reset.outstanding.reads = [] ∧
    lookup splitHw 0x35 = some { lo := 770, hi := 1336 } ∧
    [SignalField.ampl, .mode, .freq].Perm [.mode, .freq, .ampl] := by decide

end Sys2Proof.Tests
end

section
/-! SUPPORT. What one event, or none, can do to the state of this hardware, said once: every frame fact and every invariant of
10_state.md is a case analysis over `Effect`. -/

namespace Sys2Proof.Machine

open Statements (pressWord)

/-- `Effect s e t`: the event `e` (`none` where none comes) may take this hardware from `s` to `t`. Each case is the update it
writes; the cases that write a control register carry the word that does so, the others the guard an invariant needs. -/
inductive Effect (s : State) : Option Input → State → Prop where
  /-- nothing is written: an unbound KEYDN, a release without a match, a sample with no block, an event of R42 -/
  | held {e : Option Input} : Effect s e s
  | reset : Effect s (some .reset) (execReset s)
  | fault {e : Option Input} (f : FaultCode) : Effect s e (raise f s)
  | press {w : Word} {sym : Symbol} {pair : FreqPair} (hpress : pressWord w sym s) (hl : lookup Config.hw sym = some pair) :
    Effect s (some (.word .control w)) (((s.setFreq pair).setMode .digitActive).setLastsym (some sym))
  /-- a release, or a mode button -/
  | mode {e : Option Input} {m : Mode} (hm : m ≠ .digitActive) : Effect s e (s.setMode m)
  | setamp {w : Word} {v : Int} (hd : decode .control w = .ok (.setamp v)) :
    Effect s (some (.word .control w)) (s.setAmpl (amplOperand Config.hw v))
  | bindkey {w : Word} {key : KeyCode} {sym : Symbol} (hd : decode .control w = .ok (.bindkey key sym)) :
    Effect s (some (.word .control w)) (s.setKeymap (s.keymap.bind key.toNat sym))
  | render {e : Option Input} (n : BitVec 20) (hb : s.block = none) : Effect s e (renderBlock Config.hw n.toNat s)
  | blockStart {e : Option Input} (n : BitVec 20) (hb : s.block = none) :
    Effect s e ((s.setSnap s.signal).setBlock
      (if n.toNat = 0 then none else some { base := s.sclk, frames := n.toNat, produced := 0 }))
  | sample {e : Option Input} {b : Block} (hb : s.block = some b) (hlt : b.produced + 1 < b.frames) :
    Effect s e ((s.setPcm (s.pcm ++ [sampleAt Config.hw s.snap (sampleIndex b.base b.produced)])).setBlock
      (some { b with produced := b.produced + 1 }))
  | lastSample {e : Option Input} {b : Block} (hb : s.block = some b) (hlt : ¬ b.produced + 1 < b.frames) :
    Effect s e (((s.setPcm (s.pcm ++ [sampleAt Config.hw s.snap (sampleIndex b.base b.produced)])).setBlock none).setSclk
      (sampleIndex b.base b.frames))

theorem pressDigit_effect {w : Word} {sym : Symbol} {s : State} (hpress : pressWord w sym s) :
    Effect s (some (.word .control w)) (pressDigit Config.hw sym s) := by
  rcases pressDigit_cases Config.hw sym s with ⟨pair, hl, he⟩ | ⟨-, he⟩
  · rw [he, startDigit_atomic hw_snapAtomic]
    exact .press hpress hl
  · rw [he]
    exact .fault _

theorem releaseOnMatch_effect (e : Option Input) (sym : Symbol) (s : State) : Effect s e (releaseOnMatch sym s) := by
  rcases releaseOnMatch_cases sym s with ⟨-, he⟩ | ⟨-, he⟩ <;> rw [he]
  · exact .mode nofun
  · exact .held

theorem produceSample_effect (e : Option Input) (s : State) : Effect s e (produceSample Config.hw s) := by
  cases hb : s.block with
  | none =>
    rw [produceSample_of_none _ hb]
    exact .held
  | some b =>
    rw [produceSample_of_some _ hb]
    by_cases hlt : b.produced + 1 < b.frames
    · rw [blockSample_of_lt _ s hlt]
      exact .sample hb hlt
    · rw [blockSample_of_not_lt _ s hlt]
      exact .lastSample hb hlt

theorem execRender_effect {e : Option Input} {n : BitVec 20} {s t : State} (h : execRender n s = .next t) :
    Effect s e t := by
  cases hb : s.block with
  | none =>
    rw [execRender_of_none n hb] at h
    cases h
    exact .render n hb
  | some b =>
    rw [execRender_of_some n hb] at h
    cases h

theorem startRender_effect {e : Option Input} {n : BitVec 20} {s t : State} (h : startRender Config.hw n s = .next t) :
    Effect s e t := by
  cases hb : s.block with
  | none =>
    rw [startRender_of_none n hb, beginBlock_hw] at h
    cases h
    exact .blockStart n hb
  | some b => simp [startRender, hb] at h

/-- An operation of the control port, from the word that carries it. -/
theorem exec_effect {w : Word} {i : Instr} {s t : State} (hd : decode .control w = .ok i) (h : exec i s = .next t) :
    Effect s (some (.word .control w)) t := by
  cases i with
  | pressd sym =>
    cases h
    exact pressDigit_effect (.inl hd)
  | keydn key =>
    cases h
    cases hk : s.keymap.read key.toNat with
    | none =>
      rw [pressBound_of_none hk]
      exact .held
    | some sym =>
      rw [pressBound_of_some hk]
      exact pressDigit_effect (.inr ⟨key, hd, hk⟩)
  | keyup key =>
    simp only [exec, execKeyup] at h
    split at h
    · cases h
      exact .held
    · cases h
      exact releaseOnMatch_effect _ _ _
  | setamp v =>
    cases h
    exact .setamp hd
  | bindkey key sym =>
    cases h
    exact .bindkey hd
  | render n => exact execRender_effect h
  | reld _ | pressmDial | pressmRing | pressmBusy | relmDial | relmRing | relmBusy =>
    cases h
    exact .mode nofun

theorem execWord_effect {port : Port} {w : Word} {s t : State} (h : execWord port w s = .next t) :
    Effect s (some (.word port w)) t := by
  rcases execWord_cases port w s with ⟨i, hd, he⟩ | ⟨r, -, he⟩ <;> rw [he] at h
  · cases port with
    | control => exact exec_effect hd h
    | audio =>
      obtain ⟨n, rfl⟩ := decode_audio_ok hd
      exact execRender_effect h
  · cases h
    exact .fault _

theorem execBlockStart_effect {w : Word} {s t : State} (h : execBlockStart w s = .next t) :
    Effect s (some (.blockStart w)) t := by
  cases hd : decode .audio w with
  | ok i =>
    obtain ⟨n, rfl⟩ := decode_audio_ok hd
    rw [execBlockStart_render s hd] at h
    exact startRender_effect h
  | error r =>
    rw [execBlockStart_error s hd] at h
    cases h
    exact .fault _

/-- Whatever event completes, it has one of the effects. -/
theorem execInput_effect {e : Input} {s t : State} (h : execInput e s = .next t) : Effect s (some e) t := by
  cases e with
  | reset =>
    cases h
    exact .reset
  | word port w => exact execWord_effect h
  | blockStart w => exact execBlockStart_effect h
  | sample =>
    cases h
    exact produceSample_effect _ s
  | modeWrite | read _ =>
    cases h
    exact .held

/-- Whatever stream is issued, a step of this hardware that completes has an effect of its event on the state that has taken
it. -/
theorem stepWith_effect {agents : Nat → Option Input} {s t : State} (h : stepWith Config.hw agents s = .next t) :
    Effect (consumed s) (nextInput agents s) t := by
  cases he : nextInput agents s with
  | some e => exact execInput_effect ((stepWith_some he).symm.trans h)
  | none =>
    rw [stepWith_none he, runOn_hw] at h
    cases h
    exact produceSample_effect _ _

end Sys2Proof.Machine
end

section
/-! SUPPORT. The invariants of 10_state.md section 3 as properties of the fields they speak of, at reset and under each effect. -/

namespace Sys2Proof.Machine

theorem SignalInv.congr {s t : State} (hs : SignalInv s) (ha : t.ampl = s.ampl) (hf : t.freq = s.freq)
    (hl : t.lastsym = s.lastsym) (hm : t.mode = s.mode) : SignalInv t where
  ampl_bound := ha ▸ hs.ampl_bound
  freq_legal := hf ▸ hs.freq_legal
  lastsym_defined := hl ▸ hs.lastsym_defined
  digit_pair := by rw [hm, hl, hf]; exact hs.digit_pair

theorem SnapInv.congr {s t : State} (hs : SnapInv s) (h : t.snap = s.snap) : SnapInv t where
  ampl_bound := h ▸ hs.ampl_bound
  freq_legal := h ▸ hs.freq_legal
  digit_pair := h ▸ hs.digit_pair

theorem ClockInv.congr {s t : State} (hs : ClockInv s) (hb : t.block = s.block) (hc : t.sclk = s.sclk)
    (hp : t.pcm = s.pcm) : ClockInv t where
  block_ok := by rw [BlockInv, hb, hc]; exact hs.block_ok
  count := by rw [producedSoFar, hb, hc, hp]; exact hs.count

/-- A successful lookup is a row of `FTAB` (R33). -/
theorem lookup_mem_ftab {c : Config} {sym : Symbol} {pair : FreqPair} (h : lookup c sym = some pair) :
    pair ∈ c.ftab.map (·.2) :=
  List.mem_map.2 ⟨_, ftabFind_mem h, rfl⟩

/-- What SETAMP stores on this hardware (R65). -/
theorem amplOperand_hw_toNat (v : Int) : ((amplOperand Config.hw v).toNat : Int) = max 0 (min v 10000) := by
  have hclamp : clamp v Config.hw.ampMin Config.hw.ampMax = max 0 (min v 10000) := clamp_eq v 0 10000 (by decide)
  rw [amplOperand, hclamp, BitVec.toNat_ofInt]
  omega

/-- A copy of a legal Signal State is a legal snapshot (R21). -/
theorem SignalInv.snapInv {s t : State} (hs : SignalInv s) (h : t.snap = s.signal) : SnapInv t where
  ampl_bound := h ▸ hs.ampl_bound
  freq_legal := h ▸ hs.freq_legal
  digit_pair := by
    rw [h]
    intro hm
    obtain ⟨y, -, hl⟩ := hs.digit_pair hm
    exact lookup_mem_ftab hl

theorem reset_signalInv : SignalInv State.reset where
  ampl_bound := by decide
  freq_legal := .inl rfl
  lastsym_defined := nofun
  digit_pair := nofun

theorem reset_snapInv : SnapInv State.reset where
  ampl_bound := by decide
  freq_legal := .inl rfl
  digit_pair := nofun

theorem reset_clockInv : ClockInv State.reset where
  block_ok := nofun
  count := rfl

/-- Every effect keeps R25 (a), (c), (e), (g): a press writes a row of `FTAB` with its own symbol, SETAMP clamps, and no
other effect sets `DigitActive`. -/
theorem Effect.signalInv {s t : State} {e : Option Input} (h : Effect s e t) (hs : SignalInv s) : SignalInv t := by
  cases h with
  | reset => exact reset_signalInv.congr rfl rfl rfl rfl
  | @press w sym pair hpress hl =>
    exact {
      ampl_bound := hs.ampl_bound
      freq_legal := .inr (lookup_mem_ftab hl)
      lastsym_defined := by
        rintro _ ⟨⟩
        exact Option.isSome_of_eq_some hl
      digit_pair := fun _ => ⟨sym, rfl, hl⟩ }
  | mode hm => exact ⟨hs.ampl_bound, hs.freq_legal, hs.lastsym_defined, fun h => absurd h hm⟩
  | @setamp w v hd =>
    refine ⟨?_, hs.freq_legal, hs.lastsym_defined, hs.digit_pair⟩
    have := amplOperand_hw_toNat v
    simp only [State.setAmpl_ampl]
    omega
  | held | fault | bindkey | render | blockStart | sample | lastSample => exact hs.congr rfl rfl rfl rfl

/-- `SNAP` is written by reset and by a block start, which copies the registers. -/
theorem Effect.snapInv {s t : State} {e : Option Input} (h : Effect s e t) (hs : SignalInv s) (hx : SnapInv s) :
    SnapInv t := by
  cases h with
  | reset => exact reset_snapInv.congr rfl
  | render | blockStart => exact hs.snapInv rfl
  | held | fault | press | mode | setamp | bindkey | sample | lastSample => exact hx.congr rfl

theorem Effect.keymap_wf {s t : State} {e : Option Input} (h : Effect s e t) (hs : s.keymap.wf) : t.keymap.wf := by
  cases h with
  | reset => exact KeyMap.wf_nil
  | @bindkey w key sym hd => exact KeyMap.bind_wf sym hs key.isLt
  | held | fault | press | mode | setamp | render | blockStart | sample | lastSample => exact hs

theorem Effect.outstanding_nothing {s t : State} {e : Option Input} (h : Effect s e t)
    (hs : s.outstanding = .nothing) : t.outstanding = .nothing := by
  cases h with
  | reset => rfl
  | held | fault | press | mode | setamp | bindkey | render | blockStart | sample | lastSample => exact hs

theorem producedSoFar_of_none {s : State} (h : s.block = none) : producedSoFar s = 0 := by simp [producedSoFar, h]

theorem producedSoFar_of_some {s : State} {b : Block} (h : s.block = some b) : producedSoFar s = b.produced := by
  simp [producedSoFar, h]

theorem BlockInv.of_none {s : State} (h : s.block = none) : BlockInv s := by simp [BlockInv, h]

theorem BlockInv.of_some {s : State} {b : Block} (h : s.block = some b) (hbase : b.base = s.sclk)
    (hlt : b.produced < b.frames) (hn : b.frames < 2 ^ 20) : BlockInv s := by
  intro b' hb'
  cases h.symm.trans hb'
  exact ⟨hbase, hlt, hn⟩

/-- With no block in progress `SCLK` alone is the count. -/
theorem ClockInv.count_of_none {s : State} (hs : ClockInv s) (h : s.block = none) :
    BitVec.ofNat 64 s.pcm.length = s.sclk := by
  simpa [producedSoFar_of_none h] using hs.count

theorem ClockInv.count_of_some {s : State} {b : Block} (hs : ClockInv s) (h : s.block = some b) :
    BitVec.ofNat 64 s.pcm.length = s.sclk + BitVec.ofNat 64 b.produced := by
  simpa [producedSoFar_of_some h] using hs.count

/-- A whole block delivers as many words as it advances the clock by. -/
theorem ClockInv.renderBlock {s : State} (hs : ClockInv s) (hb : s.block = none) (n : Nat) :
    ClockInv (renderBlock Config.hw n s) where
  block_ok := .of_none hb
  count := by
    simp [producedSoFar_of_none, hb, sampleIndex, BitVec.ofNat_add, hs.count_of_none hb]

/-- A block start delivers nothing, and the block it leaves has produced nothing. -/
theorem ClockInv.blockStart {s : State} (hs : ClockInv s) (hb : s.block = none) (n : BitVec 20) :
    ClockInv ((s.setSnap s.signal).setBlock
      (if n.toNat = 0 then none else some { base := s.sclk, frames := n.toNat, produced := 0 })) := by
  have hcount := hs.count_of_none hb
  by_cases hn : n.toNat = 0
  · rw [if_pos hn]
    exact ⟨.of_none rfl, by simpa [producedSoFar] using hcount⟩
  · rw [if_neg hn]
    exact ⟨.of_some rfl rfl (Nat.pos_of_ne_zero hn) n.isLt, by simpa [producedSoFar] using hcount⟩

/-- A sample that is not the last is one word more and one sample of the block more. -/
theorem ClockInv.sample {s : State} {b : Block} (hs : ClockInv s) (hb : s.block = some b)
    (hlt : b.produced + 1 < b.frames) (w : Sample) :
    ClockInv ((s.setPcm (s.pcm ++ [w])).setBlock (some { b with produced := b.produced + 1 })) := by
  obtain ⟨hbase, -, hn⟩ := hs.block_ok b hb
  refine ⟨.of_some rfl hbase hlt hn, ?_⟩
  simp [producedSoFar, BitVec.ofNat_add, hs.count_of_some hb, BitVec.add_assoc]

/-- The last sample is the one that completes `frames`, by which the clock then advances. -/
theorem ClockInv.lastSample {s : State} {b : Block} (hs : ClockInv s) (hb : s.block = some b)
    (hlt : ¬ b.produced + 1 < b.frames) (w : Sample) :
    ClockInv (((s.setPcm (s.pcm ++ [w])).setBlock none).setSclk (sampleIndex b.base b.frames)) := by
  obtain ⟨hbase, hprod, -⟩ := hs.block_ok b hb
  have hlast : b.frames = b.produced + 1 := by omega
  refine ⟨.of_none rfl, ?_⟩
  simp [producedSoFar, sampleIndex, hlast, hbase, BitVec.ofNat_add, hs.count_of_some hb, BitVec.add_assoc]

theorem Effect.clockInv {s t : State} {e : Option Input} (h : Effect s e t) (hs : ClockInv s) : ClockInv t := by
  cases h with
  | reset => exact reset_clockInv.congr rfl rfl rfl
  | render n hb => exact hs.renderBlock hb n.toNat
  | blockStart n hb => exact hs.blockStart hb n
  | sample hb hlt => exact hs.sample hb hlt _
  | lastSample hb hlt => exact hs.lastSample hb hlt _
  | held | fault | press | mode | setamp | bindkey => exact hs.congr rfl rfl rfl

/-- The invariants of one state together: those of R25 and the model's own forms of log entries 15 and 19. -/
structure StateInv (s : State) : Prop where
  signal : SignalInv s
  snap : SnapInv s
  keymap_wf : s.keymap.wf
  clock : ClockInv s
  nothing_outstanding : s.outstanding = .nothing

/-- None of the invariants reads the inputs. -/
theorem StateInv.setInputs {s : State} (hs : StateInv s) (e : Option Input) (n : Nat) :
    StateInv ((s.setPresented e).setTime n) where
  signal := hs.signal.congr rfl rfl rfl rfl
  snap := hs.snap.congr rfl
  keymap_wf := hs.keymap_wf
  clock := hs.clock.congr rfl rfl rfl
  nothing_outstanding := hs.nothing_outstanding

theorem reset_stateInv : StateInv State.reset where
  signal := reset_signalInv
  snap := reset_snapInv
  keymap_wf := KeyMap.wf_nil
  clock := reset_clockInv
  nothing_outstanding := rfl

theorem Effect.stateInv {s t : State} {e : Option Input} (h : Effect s e t) (hs : StateInv s) : StateInv t where
  signal := h.signalInv hs.signal
  snap := h.snapInv hs.signal hs.snap
  keymap_wf := h.keymap_wf hs.keymap_wf
  clock := h.clockInv hs.clock
  nothing_outstanding := h.outstanding_nothing hs.nothing_outstanding

/-- R25: the invariants hold at reset and under every step, so in every state of every run. -/
theorem Reachable.stateInv {s : State} (h : Reachable s) : StateInv s := by
  induction h with
  | start => exact reset_stateInv
  | step _ hstep ih => exact (stepWith_effect hstep).stateInv (ih.setInputs _ _)

end Sys2Proof.Machine
end

section
/-! SUPPORT. The obligations of 10_state.md but O53: each from the effect of an event and what it keeps. -/

namespace Sys2Proof.Machine

/-- Settles O36: a step is an effect on the state that has taken its event, and every effect keeps the invariant. -/
theorem signalInvariantIsKept : Obligations.SignalInvariantIsKept :=
  fun _ _ hs h => (stepWith_effect h).signalInv (hs.congr rfl rfl rfl rfl)

/-- Settles O39: each effect delivers as many words as it advances `SCLK` and the block in progress by. -/
theorem sampleClockCountsTheSamples : Obligations.SampleClockCountsTheSamples :=
  fun _ _ hs h => (stepWith_effect h).clockInv (hs.congr rfl rfl rfl)

/-- Settles O37: what a block start copies is legal by the invariant of the Signal State. -/
theorem snapshotInvariantIsKept : Obligations.SnapshotInvariantIsKept :=
  fun _ _ hs hx h => (stepWith_effect h).snapInv (hs.congr rfl rfl rfl rfl) (hx.congr rfl)

/-- Settles O19: of the effects only a reset and a press touch `FREQ` or `LASTSYM`. -/
theorem onlyPressesWriteFreqAndLastsym : Obligations.OnlyPressesWriteFreqAndLastsym := by
  intro e s t h hchange
  cases execInput_effect h with
  | reset => exact .inl rfl
  | press hpress _ => exact .inr ⟨_, rfl, hpress.imp (fun hd => ⟨_, hd⟩) (fun ⟨key, hd, _⟩ => ⟨key, hd⟩)⟩
  | held | fault | mode | setamp | bindkey | render | blockStart | sample | lastSample =>
    exact absurd hchange (by simp [raise_eq])

/-- Settles O20: of the effects only a reset and SETAMP touch `AMPL`, only a reset and BINDKEY touch `KEYMAP`. -/
theorem onlySetampWritesAmplAndOnlyBindkeyWritesKeymap :
    Obligations.OnlySetampWritesAmplAndOnlyBindkeyWritesKeymap := by
  intro e s t h
  cases execInput_effect h with
  | reset => exact ⟨fun _ => .inl rfl, fun _ => .inl rfl⟩
  | setamp hd => exact ⟨fun _ => .inr ⟨_, _, rfl, hd⟩, fun hchange => absurd rfl hchange⟩
  | bindkey hd => exact ⟨fun hchange => absurd rfl hchange, fun _ => .inr ⟨_, _, _, rfl, hd⟩⟩
  | held | fault | press | mode | render | blockStart | sample | lastSample =>
    exact ⟨fun hchange => absurd rfl hchange, fun hchange => absurd rfl hchange⟩

/-- Settles O40, by induction on the run. -/
theorem reachableStatesMeetTheInvariants : Obligations.ReachableStatesMeetTheInvariants := by
  intro s h
  obtain ⟨hsignal, hsnap, hkeymap, hclock, hout⟩ := h.stateInv
  exact ⟨hsignal, hsnap, hkeymap, hclock, hout⟩

/-- Settles O34: each value is read off `State.reset`, and the empty `KEYMAP` reads unbound at every key. -/
theorem resetStateHoldsTheResetValues : Obligations.ResetStateHoldsTheResetValues :=
  ⟨State.reset_mode, State.reset_freq, State.reset_ampl, State.reset_sclk, State.reset_lastsym, State.reset_fault,
    KeyMap.read_nil, State.reset_block⟩

/-- Settles O35: the invariants hold at reset and read no input. -/
theorem invariantsHoldAtReset : Obligations.InvariantsHoldAtReset := by
  intro e n
  obtain ⟨hsignal, hsnap, hkeymap, hclock, hout⟩ := reset_stateInv.setInputs e n
  exact ⟨hsignal, hsnap, hkeymap, hclock, hout⟩

end Sys2Proof.Machine
end

section
/-! SUPPORT. The fields around the hardware (log entries 1 and 2): under every configuration an event but a reset does the same
whatever words stand before its own in the record of the output, whatever is presented and whatever the step count. -/

namespace Sys2Proof.Machine

/-- `s` with the words `before` in front of its record, the event `e` on the inputs and `n` steps taken. -/
def State.within (before : List Sample) (e : Option Input) (n : Nat) (s : State) : State :=
  { s with pcm := before ++ s.pcm, presented := e, time := n }

/-- An outcome with its next state changed by `f`. -/
def mapNext (f : State → State) : Host.Outcome State Fault Refusal → Host.Outcome State Fault Refusal
  | .next t => .next (f t)
  | .fault r => .fault r
  | .refused r => .refused r

@[simp] theorem mapNext_next (f : State → State) (t : State) : mapNext f (.next t) = .next (f t) := rfl
@[simp] theorem mapNext_fault (f : State → State) (r : Fault) : mapNext f (.fault r) = .fault r := rfl

variable (c : Config) (before : List Sample) (p : Option Input) (n : Nat) (s : State)

@[simp] theorem within_toHardware : (s.within before p n).toHardware = s.toHardware := rfl
@[simp] theorem within_pcm : (s.within before p n).pcm = before ++ s.pcm := rfl
@[simp] theorem within_signal : (s.within before p n).signal = s.signal := rfl

@[simp] theorem raise_within (f : FaultCode) : raise f (s.within before p n) = (raise f s).within before p n := rfl

theorem startDigit_within (sym : Symbol) (pair : FreqPair) :
    startDigit c sym pair (s.within before p n) = (startDigit c sym pair s).within before p n := by
  simp only [startDigit, apply_ite (State.within before p n)]
  rfl

@[simp] theorem pressDigit_within (sym : Symbol) :
    pressDigit c sym (s.within before p n) = (pressDigit c sym s).within before p n := by
  cases hl : lookup c sym with
  | none => simp [pressDigit_of_none _ hl]
  | some pair =>
    rw [pressDigit_of_some _ hl, pressDigit_of_some _ hl, startDigit_within]

@[simp] theorem pressBound_within (key : KeyCode) :
    pressBound c key (s.within before p n) = (pressBound c key s).within before p n := by
  unfold pressBound
  simp only [within_toHardware]
  split <;> simp

@[simp] theorem releaseOnMatch_within (sym : Symbol) :
    releaseOnMatch sym (s.within before p n) = (releaseOnMatch sym s).within before p n := by
  simp only [releaseOnMatch, apply_ite (State.within before p n)]
  rfl

@[simp] theorem releaseDigit_within (policy : ReldPolicy) (sym : Symbol) :
    releaseDigit policy sym (s.within before p n) = (releaseDigit policy sym s).within before p n := by
  cases policy with
  | always => rfl
  | onMatch => exact releaseOnMatch_within before p n s sym

@[simp] theorem renderBlock_within (frames : Nat) :
    renderBlock c frames (s.within before p n) = (renderBlock c frames s).within before p n := by
  simp [renderBlock, State.within, State.setSnap, State.setPcm, State.setSclk, State.signal]

@[simp] theorem beginBlock_within (frames : Nat) :
    beginBlock c frames (s.within before p n) = (beginBlock c frames s).within before p n := by
  simp only [beginBlock, apply_ite (State.within before p n)]
  rfl

@[simp] theorem blockSample_within (b : Block) :
    blockSample c b (s.within before p n) = (blockSample c b s).within before p n := by
  by_cases hlt : b.produced + 1 < b.frames
  · simp [blockSample_of_lt c _ hlt, State.within, State.setPcm, State.setBlock]
  · simp [blockSample_of_not_lt c _ hlt, State.within, State.setPcm, State.setBlock, State.setSclk]

@[simp] theorem produceSample_within :
    produceSample c (s.within before p n) = (produceSample c s).within before p n := by
  unfold produceSample
  simp only [within_toHardware]
  split <;> simp

@[simp] theorem pressUnfinished_within : pressUnfinished c (s.within before p n) = pressUnfinished c s := rfl

@[simp] theorem readsUnfinished_within : readsUnfinished c (s.within before p n) = readsUnfinished c s := rfl

@[simp] theorem writeMode_within : writeMode c (s.within before p n) = (writeMode c s).within before p n := by
  simp only [writeMode, apply_ite (State.within before p n)]
  rfl

theorem copyField_within (f : SignalField) :
    copyField f (s.within before p n) = (copyField f s).within before p n := by
  cases f <;> rfl

theorem closeEmpty_within : closeEmpty (s.within before p n) = (closeEmpty s).within before p n := by
  unfold closeEmpty
  simp only [within_toHardware]
  split
  · split <;> rfl
  · rfl

theorem setOutstanding_within (o : Outstanding) :
    (s.within before p n).setOutstanding o = (s.setOutstanding o).within before p n := rfl

@[simp] theorem readField_within (f : SignalField) :
    readField c f (s.within before p n) = (readField c f s).within before p n := by
  simp only [readField, readsUnfinished_within, within_toHardware, copyField_within, setOutstanding_within,
    closeEmpty_within, apply_ite (State.within before p n)]
  rfl

@[simp] theorem runOn_within : runOn c (s.within before p n) = (runOn c s).within before p n := by
  simp only [runOn, pressUnfinished_within, readsUnfinished_within, within_toHardware, writeMode_within,
    readField_within, produceSample_within, apply_ite (State.within before p n)]
  cases s.outstanding.reads <;> rfl

@[simp] theorem sampleEvent_within :
    sampleEvent c (s.within before p n) = mapNext (State.within before p n) (sampleEvent c s) := by
  simp only [sampleEvent, readsUnfinished_within, produceSample_within, apply_ite (mapNext _), mapNext_next,
    mapNext_fault]

@[simp] theorem renderRequest_within (frames : BitVec 20) :
    renderRequest c frames (s.within before p n) = mapNext (State.within before p n) (renderRequest c frames s) := by
  unfold renderRequest
  simp only [within_toHardware, renderBlock_within, beginBlock_within]
  split
  · rfl
  · split <;> rfl

@[simp] theorem startRender_within (frames : BitVec 20) :
    startRender c frames (s.within before p n) = mapNext (State.within before p n) (startRender c frames s) := by
  unfold startRender
  simp only [within_toHardware]
  split <;> simp

@[simp] theorem execKeyup_within (key : KeyCode) :
    execKeyup key (s.within before p n) = mapNext (State.within before p n) (execKeyup key s) := by
  unfold execKeyup
  simp only [within_toHardware]
  split <;> simp

@[simp] theorem execWith_within (i : Instr) :
    execWith c i (s.within before p n) = mapNext (State.within before p n) (execWith c i s) := by
  cases i with
  | pressd _ | reld _ | keydn _ | render _ => simp [execWith]
  | keyup key => exact execKeyup_within before p n s key
  | pressmDial | pressmRing | pressmBusy | relmDial | relmRing | relmBusy | setamp _ | bindkey _ _ => rfl

@[simp] theorem execWordWith_within (port : Port) (w : Word) :
    execWordWith c port w (s.within before p n) = mapNext (State.within before p n) (execWordWith c port w s) := by
  simp only [execWordWith, pressUnfinished_within, execWith_within, raise_within, apply_ite (mapNext _), mapNext_fault]
  cases decode port w <;> rfl

@[simp] theorem execBlockStartWith_within (w : Word) :
    execBlockStartWith c w (s.within before p n) =
      mapNext (State.within before p n) (execBlockStartWith c w s) := by
  unfold execBlockStartWith
  split <;> simp

theorem execNextWith_within {e : Option Input} (he : e ≠ some .reset) :
    execNextWith c e (s.within before p n) = mapNext (State.within before p n) (execNextWith c e s) := by
  cases e with
  | none => simp [execNextWith]
  | some e =>
    cases e with
    | reset => exact absurd rfl he
    | word _ _ | blockStart _ | sample | modeWrite | read _ => simp [execNextWith, execInputWith]

end Sys2Proof.Machine
end

section
/-! SUPPORT. A step as the hardware's own step (O53): a state that has taken its event is the hardware alone within its record. -/

namespace Sys2Proof.Machine

/-- The hardware alone, as `hardwareStep` runs it: nothing delivered, nothing presented, no step taken. -/
def Hardware.alone (h : Hardware) : State := { toHardware := h, pcm := [], presented := none, time := 0 }

theorem hardwareStep_eq (c : Config) (e : Option Input) (h : Hardware) :
    hardwareStep c e h =
      match execNextWith c e h.alone with
      | .next t => .next (t.toHardware, t.pcm)
      | .fault r => .fault r
      | .refused r => .refused r := rfl

theorem consumed_eq_within (s : State) : consumed s = s.toHardware.alone.within s.pcm none (s.time + 1) := by
  simp [consumed, Hardware.alone, State.within, State.setPresented, State.setTime]

/-- Settles O53: a reset answers the reset state alone; any other event commutes with `State.within`, and the state that has
taken its event is the hardware alone within the record so far. -/
theorem stepIsTheHardwareStepOfTheNextEvent : Obligations.StepIsTheHardwareStepOfTheNextEvent := by
  intro c agents s
  unfold stepWith
  by_cases he : nextInput agents s = some .reset
  · rw [he]
    rfl
  · rw [consumed_eq_within, execNextWith_within c _ _ _ _ he, hardwareStep_eq]
    cases execNextWith c (nextInput agents s) s.toHardware.alone with
    | next t => simp [State.within, he]
    | fault r => rfl
    | refused r => rfl

end Sys2Proof.Machine
end

section
/-! SUPPORT. The tables and the byte layout of 20_memory.md: `FTAB` as its matrix (R32, R33), `KEYMAP` (R36), the two bytes of a
stored sample (R37). -/

namespace Sys2Proof.Machine

open Statements (matrixRows)

/-- `FTAB` is the matrix of R32, row by row. -/
theorem hw_ftab_eq_matrixRows : Config.hw.ftab = matrixRows.map fun row => ftabRow row.1 row.2.1 row.2.2 := rfl

/-- A row is found by its code when no other row has that code. -/
theorem ftabFind_of_mem {rows : List (Symbol × FreqPair)} (hnodup : (rows.map (·.1)).Nodup) {sym : Symbol} {pair : FreqPair}
    (h : (sym, pair) ∈ rows) : ftabFind rows sym = some pair := by
  induction rows with
  | nil => cases h
  | cons row rows ih =>
    obtain ⟨hhead, hrest⟩ := List.nodup_cons.1 hnodup
    rw [ftabFind]
    rcases List.mem_cons.1 h with rfl | h
    · exact if_pos rfl
    · rw [if_neg fun hcode => hhead (List.mem_map.2 ⟨_, h, hcode.symm⟩), ih hrest h]

/-- The sixteen codes of `FTAB` are different (R32). -/
theorem hw_ftab_codes_nodup : (Config.hw.ftab.map (·.1)).Nodup := by decide

/-- A word is its low byte and 256 times its high byte. -/
theorem lowByte_add_highByte (w : Sample) :
    (w.extractLsb' 0 8).toNat + 256 * (w.extractLsb' 8 8).toNat = w.toNat := by
  have := w.isLt
  simp only [BitVec.extractLsb'_toNat, Nat.shiftRight_eq_div_pow]
  omega

/-- Settles O38: of the effects a step can have only a reset and BINDKEY write `KEYMAP`, and each leaves the canonical form. -/
theorem keymapStaysCanonical : Obligations.KeymapStaysCanonical :=
  fun _ _ hs h => (stepWith_effect h).keymap_wf hs

/-- Settles O56: no effect of a step of this hardware writes what is outstanding, but a reset, which leaves nothing. -/
theorem nothingIsEverOutstanding : Obligations.NothingIsEverOutstanding :=
  fun _ _ hs h => (stepWith_effect h).outstanding_nothing hs

/-- Settles O2: a row is found since its code is no other row's, and a code that the lookup answers is a row's. -/
theorem lookupIsTheFrequencyTable : Obligations.LookupIsTheFrequencyTable := by
  constructor
  · intro row hrow
    refine ftabFind_of_mem hw_ftab_codes_nodup ?_
    rw [hw_ftab_eq_matrixRows]
    exact List.mem_map.2 ⟨row, hrow, rfl⟩
  · intro sym hother
    refine Option.eq_none_iff_forall_ne_some.2 fun pair hl => ?_
    have hmem := ftabFind_mem hl
    rw [hw_ftab_eq_matrixRows] at hmem
    obtain ⟨row, hrow, heq⟩ := List.mem_map.1 hmem
    exact hother row hrow (congrArg Prod.fst heq)

/-- Settles O50: the bytes are the word's two halves. -/
theorem storedSampleBytes : Obligations.StoredSampleBytes :=
  ⟨rfl, fun w => ⟨_, _, lowByte_add_highByte w, rfl, rfl⟩⟩

end Sys2Proof.Machine
end

section
/-! SUPPORT. The two writes of a press with `SNAP_ATOMIC` false (R42 (a)). -/

namespace Sys2Proof.Machine

open Statements (pressWord)

variable {c : Config} {w : Word} {sym : Symbol} {pair : FreqPair} {s : State}

theorem pressUnfinished_of_atomic (hc : c.snapAtomic = true) : pressUnfinished c s = false := by
  simp [pressUnfinished, hc]

theorem pressUnfinished_split (hc : c.snapAtomic = false) : pressUnfinished c s = s.outstanding.modeWrite := by
  simp [pressUnfinished, hc]

/-- The word of a press of a defined symbol writes what the press writes, under either value of `SNAP_ATOMIC`. -/
theorem execInputWith_pressWord (hfree : pressUnfinished c s = false) (hpress : pressWord w sym s)
    (hl : lookup c sym = some pair) : execInputWith c (.word .control w) s = .next (startDigit c sym pair s) := by
  rcases hpress with hd | ⟨key, hd, hk⟩
  · simp [execInputWith, execWordWith, hfree, hd, execWith, pressDigit_of_some s hl]
  · simp [execInputWith, execWordWith, hfree, hd, execWith, pressBound_of_some hk, pressDigit_of_some s hl]

/-- CTRL issues no word before the `MODE` write of its press (log entry 15). -/
theorem execInputWith_control_of_unfinished (hbusy : pressUnfinished c s = true) :
    execInputWith c (.word .control w) s = .fault .splitOrder := by
  simp [execInputWith, execWordWith, hbusy]

theorem pressUnfinished_startDigit (hc : c.snapAtomic = false) :
    pressUnfinished c (startDigit c sym pair s) = true := by
  rw [pressUnfinished_split hc, startDigit_split hc]
  rfl

theorem writeMode_of_unfinished (hbusy : pressUnfinished c s = true) :
    writeMode c s = (s.setMode .digitActive).setOutstanding { s.outstanding with modeWrite := false } := by
  simp [writeMode, hbusy]

/-- The second write of a press leaves what was outstanding before the first. -/
theorem writeMode_startDigit (hc : c.snapAtomic = false) (hout : s.outstanding.modeWrite = false) :
    writeMode c (startDigit c sym pair s) =
      ((startDigit c sym pair s).setMode .digitActive).setOutstanding s.outstanding := by
  have hrestored : { s.outstanding with modeWrite := false } = s.outstanding := by rw [← hout]
  rw [writeMode_of_unfinished (pressUnfinished_startDigit hc), startDigit_split hc, State.setOutstanding_outstanding,
    hrestored]

/-- The two writes of a press together are the whole press. -/
theorem writeMode_startDigit_eq_atomic {c' : Config} (hc : c.snapAtomic = false) (hc' : c'.snapAtomic = true)
    (hout : s.outstanding.modeWrite = false) :
    writeMode c (startDigit c sym pair s) = startDigit c' sym pair s := by
  rw [writeMode_startDigit hc hout, startDigit_split hc, startDigit_atomic hc']
  rfl

end Sys2Proof.Machine
end

section
/-! SUPPORT. The three reads of a block start with `SNAP_ATOMIC` false (R42 (b)). -/

namespace Sys2Proof.Machine

/-- The fields `fs` copied into `SNAP` one after another, with no regard to what is outstanding. -/
def copyFields (fs : List SignalField) (s : State) : State := fs.foldl (fun t f => copyField f t) s

theorem copyFields_cons (f : SignalField) (fs : List SignalField) (s : State) :
    copyFields (f :: fs) s = copyFields fs (copyField f s) := rfl

@[simp] theorem copyField_outstanding (f : SignalField) (s : State) : (copyField f s).outstanding = s.outstanding := by
  cases f <;> rfl

theorem copyField_setOutstanding (f : SignalField) (s : State) (o : Outstanding) :
    copyField f (s.setOutstanding o) = (copyField f s).setOutstanding o := by
  cases f <;> rfl

theorem copyFields_setOutstanding (fs : List SignalField) (s : State) (o : Outstanding) :
    copyFields fs (s.setOutstanding o) = (copyFields fs s).setOutstanding o :=
  List.foldl_hom (f := fun t : State => t.setOutstanding o) fun t f => copyField_setOutstanding f t o

/-- Each copy writes its own part of `SNAP` and reads a register that no copy writes. -/
theorem copyField_comm (f g : SignalField) (s : State) : copyField f (copyField g s) = copyField g (copyField f s) := by
  cases f <;> cases g <;> rfl

theorem copyFields_perm {fs gs : List SignalField} (h : fs.Perm gs) (s : State) : copyFields fs s = copyFields gs s :=
  h.foldl_eq' (fun f _ g _ t => copyField_comm g f t) s

/-- All three fields are the whole snapshot. -/
theorem copyFields_all (s : State) : copyFields [.mode, .freq, .ampl] s = s.setSnap s.signal := rfl

theorem readsUnfinished_of_mem {c : Config} {f : SignalField} {s : State} (hc : c.snapAtomic = false)
    (hf : f ∈ s.outstanding.reads) : readsUnfinished c s = true := by
  simp [readsUnfinished, hc, List.ne_nil_of_mem hf]

/-- A read with others still to come copies its field and crosses itself off. -/
theorem readField_of_rest {c : Config} {f : SignalField} {s : State} (hc : c.snapAtomic = false)
    (hf : f ∈ s.outstanding.reads) (hrest : s.outstanding.reads.erase f ≠ []) :
    readField c f s =
      (copyField f s).setOutstanding { s.outstanding with reads := s.outstanding.reads.erase f } := by
  simp [readField, readsUnfinished_of_mem hc hf, hf, hrest]

/-- The last read also ends the block start. -/
theorem readField_of_last {c : Config} {f : SignalField} {s : State} (hc : c.snapAtomic = false)
    (hf : f ∈ s.outstanding.reads) (hrest : s.outstanding.reads.erase f = []) :
    readField c f s = closeEmpty ((copyField f s).setOutstanding { s.outstanding with reads := [] }) := by
  simp [readField, readsUnfinished_of_mem hc hf, hf, hrest]

/-- All the outstanding reads, in any order, copy their fields and end the block start. -/
theorem execInputsWith_reads {c : Config} (hc : c.snapAtomic = false) {fs : List SignalField} (hne : fs ≠ [])
    {s : State} (hperm : fs.Perm s.outstanding.reads) :
    execInputsWith c (fs.map .read) s =
      .next (closeEmpty ((copyFields fs s).setOutstanding { s.outstanding with reads := [] })) := by
  induction fs generalizing s with
  | nil => exact absurd rfl hne
  | cons f fs ih =>
    obtain ⟨hf, hrest⟩ := List.cons_perm_iff_perm_erase.1 hperm
    rw [List.map_cons, execInputsWith_cons_next (t := readField c f s) _ rfl, copyFields_cons]
    by_cases hfs : fs = []
    · subst hfs
      rw [readField_of_last hc hf hrest.nil_eq.symm]
      rfl
    · have hmore : s.outstanding.reads.erase f ≠ [] := fun h => hfs (h ▸ hrest).eq_nil
      rw [readField_of_rest hc hf hmore, ih hfs hrest, copyFields_setOutstanding]
      rfl

theorem decode_encode_render (n : BitVec 20) : decode .audio (encode (.render n)) = .ok (.render n) :=
  Laws.RoundTrip.render n rfl

theorem execInputWith_blockStart_render (c : Config) (n : BitVec 20) {s : State} (hb : s.block = none) :
    execInputWith c (.blockStart (encode (.render n))) s = .next (beginBlock c n.toNat s) := by
  simp [execInputWith, execBlockStartWith, decode_encode_render, startRender, hb]

/-- With `SNAP_ATOMIC` true the block start copies the registers in one event. -/
theorem beginBlock_atomic {c : Config} (hc : c.snapAtomic = true) (n : Nat) (s : State) :
    beginBlock c n s =
      (s.setSnap s.signal).setBlock (if n = 0 then none else some { base := s.sclk, frames := n, produced := 0 }) := by
  simp [beginBlock, hc]

/-- With `SNAP_ATOMIC` false it leaves all three reads outstanding, and the block open whatever its frames. -/
theorem beginBlock_split {c : Config} (hc : c.snapAtomic = false) (n : Nat) (s : State) :
    beginBlock c n s =
      (s.setBlock (some { base := s.sclk, frames := n, produced := 0 })).setOutstanding
        { s.outstanding with reads := [.mode, .freq, .ampl] } := by
  simp [beginBlock, hc]

/-- The end of the block start keeps a block that has frames and drops one that has none. -/
theorem closeEmpty_setBlock (s : State) (b : Block) :
    closeEmpty (s.setBlock (some b)) = s.setBlock (if b.frames = 0 then none else some b) := by
  by_cases h : b.frames = 0
  · simp only [closeEmpty, State.setBlock_block, if_pos h]
    rfl
  · simp only [closeEmpty, State.setBlock_block, if_neg h]

/-- A block start and its three reads, in any order, are the block start whose reads are one event. -/
theorem execInputsWith_reads_beginBlock {c c' : Config} (hc : c.snapAtomic = false) (hc' : c'.snapAtomic = true) (n : Nat)
    {s : State} (hreads : s.outstanding.reads = []) {fs : List SignalField} (hperm : fs.Perm [.mode, .freq, .ampl]) :
    execInputsWith c (fs.map .read) (beginBlock c n s) = .next (beginBlock c' n s) := by
  have hne : fs ≠ [] := by
    rintro rfl
    exact absurd hperm.length_eq (by decide)
  have hrestored : { s.outstanding with reads := [] } = s.outstanding := by rw [← hreads]
  rw [beginBlock_split hc, execInputsWith_reads hc hne hperm, copyFields_setOutstanding, copyFields_perm hperm,
    copyFields_all, State.setOutstanding_outstanding, hrestored, beginBlock_atomic hc']
  exact congrArg _ (closeEmpty_setBlock (s.setSnap s.signal) { base := s.sclk, frames := n, produced := 0 })

end Sys2Proof.Machine
end

section
/-! SUPPORT. The obligations of 20_memory.md section 5 about `SNAP_ATOMIC` false. -/

namespace Sys2Proof.Machine

/-- Settles O57: the state between the two writes is the one `startDigit` leaves. -/
theorem splitPressIsCaughtBetweenItsWrites : Obligations.SplitPressIsCaughtBetweenItsWrites := by
  intro c w sym pair s hc hpress hout hl
  have hfree : pressUnfinished c s = false := (pressUnfinished_split hc).trans hout
  have hbusy : pressUnfinished c (startDigit c sym pair s) = true := pressUnfinished_startDigit hc
  refine ⟨startDigit c sym pair s, execInputWith_pressWord hfree hpress hl, ?_, ?_, ?_,
    fun _ => execInputWith_control_of_unfinished hbusy, congrArg _ (writeMode_startDigit hc hout)⟩ <;>
    simp [startDigit_split hc]

/-- Settles O51: the two writes of a press are the whole press, and three reads in any order the whole snapshot. -/
theorem splitEventsAgreeWhenAdjacent : Obligations.SplitEventsAgreeWhenAdjacent := by
  intro c hc
  constructor
  · intro w sym pair s hpress hout hl
    have hfree : pressUnfinished c s = false := (pressUnfinished_split hc).trans hout
    refine ⟨startDigit { c with snapAtomic := true } sym pair s, ?_, ?_⟩
    · exact execInputsWith_cons_next [] (execInputWith_pressWord (pressUnfinished_of_atomic rfl) hpress hl)
    · rw [execInputsWith_cons_next _ (execInputWith_pressWord hfree hpress hl), execInputsWith_cons_next [] rfl,
        writeMode_startDigit_eq_atomic (c' := { c with snapAtomic := true }) hc rfl hout, execInputsWith_nil]
  · intro n s fs hb hreads hperm
    refine ⟨beginBlock { c with snapAtomic := true } n.toNat s, ?_, ?_⟩
    · exact execInputsWith_cons_next [] (execInputWith_blockStart_render _ n hb)
    · rw [execInputsWith_cons_next _ (execInputWith_blockStart_render c n hb)]
      exact execInputsWith_reads_beginBlock hc rfl n.toNat hreads hperm

end Sys2Proof.Machine
end

section
/-! SUPPORT. The two directions of the round trip of decoder and encoder (R51, R53), and with them decoding said once: a word
decodes to an operation exactly when it is that operation's word. -/

namespace Sys2Proof

/-- `i` is an operation of `port` that fits its word, and `w` is that word. -/
def IsWordOf (port : Port) (w : Word) (i : Instr) : Prop := encode i = w ∧ i.wellFormed = true ∧ i.port = port

theorem decode_encode {i : Instr} (hwf : i.wellFormed = true) : decode i.port (encode i) = .ok i := by
  cases i with
  | pressd sym => exact Laws.RoundTrip.pressd sym hwf
  | reld sym => exact Laws.RoundTrip.reld sym hwf
  | pressmDial => exact Laws.RoundTrip.pressmDial hwf
  | pressmRing => exact Laws.RoundTrip.pressmRing hwf
  | pressmBusy => exact Laws.RoundTrip.pressmBusy hwf
  | relmDial => exact Laws.RoundTrip.relmDial hwf
  | relmRing => exact Laws.RoundTrip.relmRing hwf
  | relmBusy => exact Laws.RoundTrip.relmBusy hwf
  | setamp ampv => exact Laws.RoundTrip.setamp ampv hwf
  | bindkey key sym => exact Laws.RoundTrip.bindkey key sym hwf
  | keydn key => exact Laws.RoundTrip.keydn key hwf
  | keyup key => exact Laws.RoundTrip.keyup key hwf
  | render n => exact Laws.RoundTrip.render n hwf

/-- The operand `KIND` lets one of three operations through, with `IMM` zero (R50, R51). -/
theorem kindOperand_ok_iff (a : BitVec 8) (imm : BitVec 20) (dial ring busy i : Instr) :
    kindOperand a imm dial ring busy = .ok i ↔
      imm = 0 ∧ (a = 2 ∧ dial = i ∨ a = 3 ∧ ring = i ∨ a = 4 ∧ busy = i) := by
  unfold kindOperand
  split
  · simp_all [needZero_ok_iff]
  · split
    · simp_all [needZero_ok_iff]
    · split <;> simp_all [needZero_ok_iff]

/-- The operand read from a signed 20-bit field fits it (R50). -/
theorem setamp_ampvOf_wellFormed (imm : BitVec 20) : (Instr.setamp (ampvOf imm)).wellFormed = true := by
  have hlo : -2 ^ 19 ≤ imm.toInt := imm.le_toInt
  have hhi : imm.toInt < 2 ^ 19 := imm.toInt_lt
  rw [Instr.wellFormed, Bool.and_eq_true, decide_eq_true_eq, decide_eq_true_eq, ampvOf]
  omega

/-- The word of SETAMP carries the field its operand was read from. -/
theorem encode_setamp_ampvOf (imm : BitVec 20) : encode (.setamp (ampvOf imm)) = packWord 0x5 0 imm := by
  rw [encode, ampvOf, BitVec.ofInt_toInt]

theorem decodeControl_isWordOf {op : BitVec 4} {a : BitVec 8} {imm : BitVec 20} {i : Instr}
    (h : decodeControl op a imm = .ok i) : IsWordOf .control (packWord op a imm) i := by
  unfold decodeControl at h
  split at h
  case h_1 hop | h_2 hop | h_7 hop | h_8 hop =>
    obtain ⟨-, rfl⟩ := BitVec.toNat_eq_nat.1 hop
    obtain ⟨rfl, rfl⟩ := (needZero_ok_iff ..).1 h
    exact ⟨rfl, rfl, rfl⟩
  case h_3 hop | h_4 hop =>
    obtain ⟨-, rfl⟩ := BitVec.toNat_eq_nat.1 hop
    obtain ⟨rfl, ⟨rfl, rfl⟩ | ⟨rfl, rfl⟩ | ⟨rfl, rfl⟩⟩ := (kindOperand_ok_iff ..).1 h <;>
      exact ⟨rfl, rfl, rfl⟩
  case h_5 hop =>
    obtain ⟨-, rfl⟩ := BitVec.toNat_eq_nat.1 hop
    obtain ⟨rfl, rfl⟩ := (needZero_ok_iff ..).1 h
    exact ⟨encode_setamp_ampvOf imm, setamp_ampvOf_wellFormed imm, rfl⟩
  case h_6 hop =>
    obtain ⟨-, rfl⟩ := BitVec.toNat_eq_nat.1 hop
    cases h
    exact ⟨rfl, rfl, rfl⟩
  case h_9 | h_10 => cases h

theorem decodeAudio_isWordOf {op : BitVec 4} {a : BitVec 8} {imm : BitVec 20} {i : Instr}
    (h : decodeAudio op a imm = .ok i) : IsWordOf .audio (packWord op a imm) i := by
  unfold decodeAudio at h
  split at h
  case h_1 hop =>
    obtain ⟨-, rfl⟩ := BitVec.toNat_eq_nat.1 hop
    obtain ⟨rfl, rfl⟩ := (needZero_ok_iff ..).1 h
    exact ⟨rfl, rfl, rfl⟩
  all_goals cases h

theorem decode_isWordOf {port : Port} {w : Word} {i : Instr} (h : decode port w = .ok i) : IsWordOf port w i := by
  rw [← packWord_fields w]
  cases port with
  | control => exact decodeControl_isWordOf h
  | audio => exact decodeAudio_isWordOf h

theorem decode_ok_iff_encode_eq {i : Instr} (hwf : i.wellFormed = true) (w : Word) :
    decode i.port w = .ok i ↔ encode i = w := by
  constructor
  · intro h
    obtain ⟨hencode, -, -⟩ := decode_isWordOf h
    exact hencode
  · rintro rfl
    exact decode_encode hwf

/-- Settles O26: the round trip of each operation, one lemma for each row of the opcode table. -/
theorem decodeOfEncodeIsTheOperation : Obligations.DecodeOfEncodeIsTheOperation :=
  fun _ hwf => decode_encode hwf

/-- Settles O27: the word is its three fields, and each opcode's decoding keeps all of them in the operation. -/
theorem encodeOfDecodeIsTheWord : Obligations.EncodeOfDecodeIsTheWord :=
  fun _ _ _ h => decode_isWordOf h

end Sys2Proof
end

section
/-! SUPPORT. The rows of match and mask (R55): a word under a mask of whole fields equals a match exactly when the word is the
match with its own free fields in it. -/

namespace Sys2Proof

theorem packWord_inj {op op' : BitVec 4} {a a' : BitVec 8} {imm imm' : BitVec 20} :
    packWord op a imm = packWord op' a' imm' ↔ op = op' ∧ a = a' ∧ imm = imm' := by
  constructor
  · intro h
    exact ⟨by simpa using congrArg opField h, by simpa using congrArg aField h, by simpa using congrArg immField h⟩
  · rintro ⟨rfl, rfl, rfl⟩
    rfl

/-- A mask acts on each field of a word by itself. -/
theorem and_packWord (w : Word) (op : BitVec 4) (a : BitVec 8) (imm : BitVec 20) :
    w &&& packWord op a imm = packWord (opField w &&& op) (aField w &&& a) (immField w &&& imm) := by
  conv_lhs => rw [← packWord_fields w]
  exact BitVec.and_append.trans (congrArg (· ++ _) BitVec.and_append)

theorem packWord_eq_iff {op : BitVec 4} {a : BitVec 8} {imm : BitVec 20} {w : Word} :
    packWord op a imm = w ↔ op = opField w ∧ a = aField w ∧ imm = immField w := by
  conv_lhs => rw [← packWord_fields w]
  exact packWord_inj

/-- The rows of PRESSD and RELD: `A` is free. -/
theorem maskOpImm_eq_iff (w : Word) (op : BitVec 4) (imm : BitVec 20) :
    w &&& 0xF00FFFFF = packWord op 0#8 imm ↔ packWord op (aField w) imm = w := by
  have hmask : (0xF00FFFFF : Word) = packWord (.allOnes 4) 0#8 (.allOnes 20) := rfl
  rw [hmask, and_packWord, packWord_inj, packWord_eq_iff]
  simp only [BitVec.and_allOnes, BitVec.and_zero, true_and, eq_comm]

/-- The rows of PRESSM and RELM: no field is free. -/
theorem maskAll_eq_iff (w m : Word) : w &&& 0xFFFFFFFF = m ↔ m = w := by
  have hmask : (0xFFFFFFFF : Word) = .allOnes 32 := rfl
  rw [hmask, BitVec.and_allOnes, eq_comm]

/-- The rows of SETAMP, KEYDN, KEYUP and RENDER: `IMM` is free. -/
theorem maskOpA_eq_iff (w : Word) (op : BitVec 4) (a : BitVec 8) :
    w &&& 0xFFF00000 = packWord op a 0#20 ↔ packWord op a (immField w) = w := by
  have hmask : (0xFFF00000 : Word) = packWord (.allOnes 4) (.allOnes 8) 0#20 := rfl
  rw [hmask, and_packWord, packWord_inj, packWord_eq_iff]
  simp only [BitVec.and_allOnes, BitVec.and_zero, and_true, eq_comm]

/-- The row of BINDKEY: `A` and `IMM` are free. -/
theorem maskOp_eq_iff (w : Word) (op : BitVec 4) :
    w &&& 0xF0000000 = packWord op 0#8 0#20 ↔ packWord op (aField w) (immField w) = w := by
  have hmask : (0xF0000000 : Word) = packWord (.allOnes 4) 0#8 0#20 := rfl
  rw [hmask, and_packWord, packWord_inj, packWord_eq_iff]
  simp only [BitVec.and_allOnes, BitVec.and_zero, and_true, eq_comm]

/-- A row decides the decoding when what it asks of a word is to be the word of the row's operation. -/
theorem row_iff_decode {w : Word} {i : Instr} {row : Prop} (hwf : i.wellFormed = true) (hrow : row ↔ encode i = w) :
    row ↔ decode i.port w = .ok i :=
  hrow.trans (decode_ok_iff_encode_eq hwf w).symm

/-- Settles O28: under its mask a word equals a row's match exactly when it is the word of the row's operation with the
word's free fields as operands. -/
theorem decodingFollowsMatchAndMask : Obligations.DecodingFollowsMatchAndMask := by
  intro w
  have hsetamp : w &&& 0xFFF00000 = 0x50000000 ↔ encode (.setamp (ampvOf (immField w))) = w := by
    rw [encode_setamp_ampvOf]
    exact maskOpA_eq_iff w 0x5 0
  exact ⟨
    row_iff_decode (i := .pressd (aField w)) rfl (maskOpImm_eq_iff w 0x1 0),
    row_iff_decode (i := .reld (aField w)) rfl (maskOpImm_eq_iff w 0x2 0),
    row_iff_decode (i := .pressmDial) rfl (maskAll_eq_iff w _),
    row_iff_decode (i := .pressmRing) rfl (maskAll_eq_iff w _),
    row_iff_decode (i := .pressmBusy) rfl (maskAll_eq_iff w _),
    row_iff_decode (i := .relmDial) rfl (maskAll_eq_iff w _),
    row_iff_decode (i := .relmRing) rfl (maskAll_eq_iff w _),
    row_iff_decode (i := .relmBusy) rfl (maskAll_eq_iff w _),
    row_iff_decode (setamp_ampvOf_wellFormed _) hsetamp,
    row_iff_decode (i := .bindkey (immField w) (aField w)) rfl (maskOp_eq_iff w 0x6),
    row_iff_decode (i := .keydn (immField w)) rfl (maskOpA_eq_iff w 0x7 0),
    row_iff_decode (i := .keyup (immField w)) rfl (maskOpA_eq_iff w 0x8 0),
    row_iff_decode (i := .render (immField w)) rfl (maskOpA_eq_iff w 0x9 0)⟩

/-- Settles O29: the fifteen words of R57 are fixed, and the decoder is run on each. -/
theorem exampleWordsDecode : Obligations.ExampleWordsDecode := by
  unfold Obligations.ExampleWordsDecode
  decide

end Sys2Proof
end

section
/-! SUPPORT. The words the decoder refuses (R52), on their fields. -/

namespace Sys2Proof

open Machine Statements

/-- The cases of R52 on the fields of a word. -/
theorem illegalWord_packWord (port : Port) (op : BitVec 4) (a : BitVec 8) (imm : BitVec 20) :
    illegalWord port (packWord op a imm) ↔
      (op.toNat = 0 ∨ 10 ≤ op.toNat) ∨
      (((op.toNat = 1 ∨ op.toNat = 2 ∨ op.toNat = 3 ∨ op.toNat = 4) ∧ imm.toNat ≠ 0) ∨
        ((op.toNat = 5 ∨ op.toNat = 7 ∨ op.toNat = 8 ∨ op.toNat = 9) ∧ a.toNat ≠ 0)) ∨
      ((op.toNat = 3 ∨ op.toNat = 4) ∧ a.toNat ≠ 2 ∧ a.toNat ≠ 3 ∧ a.toNat ≠ 4) ∨
      ((port = .control ∧ op.toNat = 9) ∨ (port = .audio ∧ 1 ≤ op.toNat ∧ op.toNat ≤ 8)) := by
  rw [illegalWord, ← opField_toNat, ← aField_toNat, ← immField_toNat, opField_packWord, aField_packWord, immField_packWord]

theorem needZero_error_iff {n : Nat} (f : BitVec n) (i : Instr) : (∃ r, needZero f i = .error r) ↔ f.toNat ≠ 0 := by
  unfold needZero
  split <;> simp_all [BitVec.toNat_eq]

theorem kindOperand_error_iff (a : BitVec 8) (imm : BitVec 20) (dial ring busy : Instr) :
    (∃ r, kindOperand a imm dial ring busy = .error r) ↔
      imm.toNat ≠ 0 ∨ (a.toNat ≠ 2 ∧ a.toNat ≠ 3 ∧ a.toNat ≠ 4) := by
  unfold kindOperand
  split
  · simp_all [needZero_error_iff]
  · split
    · simp_all [needZero_error_iff]
    · split <;> simp_all [needZero_error_iff, BitVec.toNat_eq]

/-- The control port refuses a word exactly when its fields meet a case of R52. -/
theorem decodeControl_error_iff (op : BitVec 4) (a : BitVec 8) (imm : BitVec 20) :
    (∃ r, decodeControl op a imm = .error r) ↔ illegalWord .control (packWord op a imm) := by
  rw [illegalWord_packWord]
  unfold decodeControl
  split
  case h_1 hop | h_2 hop | h_5 hop | h_7 hop | h_8 hop => simp [hop, needZero_error_iff]
  case h_3 hop | h_4 hop => simp [hop, kindOperand_error_iff]
  case h_6 hop | h_9 hop => simp [hop]
  case h_10 =>
    have hundefined : op.toNat = 0 ∨ 10 ≤ op.toNat := by
      simp only [imp_false] at *
      omega
    exact iff_of_true ⟨_, rfl⟩ (.inl hundefined)

/-- The audio port refuses a word exactly when its fields meet a case of R52. -/
theorem decodeAudio_error_iff (op : BitVec 4) (a : BitVec 8) (imm : BitVec 20) :
    (∃ r, decodeAudio op a imm = .error r) ↔ illegalWord .audio (packWord op a imm) := by
  rw [illegalWord_packWord]
  unfold decodeAudio
  split
  case h_1 hop => simp [hop, needZero_error_iff]
  case h_10 =>
    have hundefined : op.toNat = 0 ∨ 10 ≤ op.toNat := by
      simp only [imp_false] at *
      omega
    exact iff_of_true ⟨_, rfl⟩ (.inl hundefined)
  case h_2 hop | h_3 hop | h_4 hop | h_5 hop | h_6 hop | h_7 hop | h_8 hop | h_9 hop => simp [hop]

theorem decode_error_iff (port : Port) (w : Word) : (∃ r, decode port w = .error r) ↔ illegalWord port w := by
  conv_rhs => rw [← packWord_fields w]
  cases port with
  | control => exact decodeControl_error_iff ..
  | audio => exact decodeAudio_error_iff ..

theorem execWord_of_illegalWord {port : Port} {w : Word} (s : State) (h : illegalWord port w) :
    execWord port w s = .next (afterRaise s .illegalCommand) := by
  obtain ⟨r, hr⟩ := (decode_error_iff port w).2 h
  exact execWord_error s hr

/-- Settles O22: each opcode's decoding is refused exactly in its cases of R52, and what is refused is raised. -/
theorem decoderRefusesExactlyTheIllegalWords : Obligations.DecoderRefusesExactlyTheIllegalWords :=
  ⟨decode_error_iff, fun _ _ s h => execWord_of_illegalWord s h⟩

end Sys2Proof
end

section
/-! SUPPORT. A legal word as the next event (R47), from a stream or presented (log entries 1 and 14). -/

namespace Sys2Proof.Machine

/-- Settles O30: the next event is the word, and a word that decodes runs its operation. -/
theorem stepRunsTheDecodedOperation : Obligations.StepRunsTheDecodedOperation :=
  ⟨fun _ s _ _ _ hnext hd => (stepWith_some hnext).trans (execWord_ok (consumed s) hd), step_eq⟩

theorem decodeTableWord_some {nbits w : Nat} {i : Instr} (h : decodeTableWord nbits w = some i) :
    decode (portOfWord (tableWord nbits w)) (tableWord nbits w) = .ok i := by
  unfold decodeTableWord at h
  split at h
  · cases h
    assumption
  · cases h

/-- Settles O32: a presented word is the next event whatever the stream holds, and the step runs what it decodes to. -/
theorem presentedTableWordIsRun : Obligations.PresentedTableWordIsRun := by
  intro s nbits w i h
  obtain ⟨hrun, hstep⟩ := stepRunsTheDecodedOperation
  rw [hstep]
  exact hrun Config.agents (s.withFetchWord nbits w) _ _ i (nextInput_presented rfl) (decodeTableWord_some h)

end Sys2Proof.Machine
end

section
/-! SUPPORT. The control operations of 40_control_ops.md: what each writes, on the whole state, and the mode it leaves. -/

namespace Sys2Proof.Machine

open Statements (afterRaise modeAfter)

variable {key : KeyCode} {sym : Symbol} {pair : FreqPair} {s : State}

theorem raise_eq_afterRaise (f : FaultCode) (s : State) : raise f s = afterRaise s f := rfl

/-- R61, first case: the digit of a defined symbol starts. -/
theorem exec_pressd_of_some (hl : lookup Config.hw sym = some pair) :
    exec (.pressd sym) s = .next (((s.setFreq pair).setMode .digitActive).setLastsym (some sym)) := by
  rw [exec, execPressd, pressDigit_of_some s hl, startDigit_atomic hw_snapAtomic]

/-- R61, second case: an undefined symbol raises. -/
theorem exec_pressd_of_none (hl : lookup Config.hw sym = none) :
    exec (.pressd sym) s = .next (afterRaise s .unknownSymbol) := by
  rw [exec, execPressd, pressDigit_of_none s hl, raise_eq_afterRaise]

theorem exec_keydn_of_none (hk : s.keymap.read key.toNat = none) : exec (.keydn key) s = .next s :=
  congrArg Host.Outcome.next (pressBound_of_none hk)

/-- A bound key's "down" event is a press of its symbol (R67). -/
theorem exec_keydn_of_some (hk : s.keymap.read key.toNat = some sym) : exec (.keydn key) s = exec (.pressd sym) s :=
  congrArg Host.Outcome.next (pressBound_of_some hk)

theorem exec_keyup_of_none (hk : s.keymap.read key.toNat = none) : exec (.keyup key) s = .next s := by
  simp [exec, execKeyup, hk]

theorem exec_keyup_of_some (hk : s.keymap.read key.toNat = some sym) :
    exec (.keyup key) s = .next (releaseOnMatch sym s) := by
  simp [exec, execKeyup, hk]

theorem releaseOnMatch_of_eq (h : s.lastsym = some sym) : releaseOnMatch sym s = s.setMode .idle := if_pos h

theorem releaseOnMatch_of_ne (h : s.lastsym ≠ some sym) : releaseOnMatch sym s = s := if_neg h

theorem pressDigit_mode (sym : Symbol) (s : State) :
    (pressDigit Config.hw sym s).mode = if (lookup Config.hw sym).isSome then .digitActive else s.mode := by
  rcases pressDigit_cases Config.hw sym s with ⟨pair, hl, he⟩ | ⟨hl, he⟩ <;> rw [he, hl]
  · rw [startDigit_atomic hw_snapAtomic]
    rfl
  · rfl

theorem releaseOnMatch_mode (sym : Symbol) (s : State) :
    (releaseOnMatch sym s).mode = if s.lastsym = some sym then .idle else s.mode :=
  apply_ite (fun t : State => t.mode) _ _ _

/-- Settles O6: the clamped operand is within 0 .. 10000, so the 14 bits of `AMPL` hold it. -/
theorem setampStoresTheClampedValue : Obligations.SetampStoresTheClampedValue :=
  fun v _ => ⟨amplOperand Config.hw v, rfl, amplOperand_hw_toNat v⟩

/-- Settles O7: a read after the write answers the symbol at the key written, and elsewhere what was there. -/
theorem bindkeyOverwritesOneRow : Obligations.BindkeyOverwritesOneRow :=
  fun key sym s => ⟨s.keymap.bind key.toNat sym, rfl, KeyMap.read_bind_same _ _ _,
    fun _ hother => KeyMap.read_bind_other _ sym hother⟩

/-- Settles O10: KEYDN and KEYUP by the row of the key, every other operation by the update it writes. -/
theorem modeFollowsTheTransitionTable : Obligations.ModeFollowsTheTransitionTable := by
  intro i s hport
  cases i with
  | pressd sym => exact ⟨_, rfl, pressDigit_mode sym s⟩
  | keydn key =>
    cases hk : s.keymap.read key.toNat with
    | none => exact ⟨s, exec_keydn_of_none hk, by rw [modeAfter, hk]⟩
    | some sym => exact ⟨_, exec_keydn_of_some hk, by rw [modeAfter, hk, pressDigit_mode]⟩
  | keyup key =>
    cases hk : s.keymap.read key.toNat with
    | none => exact ⟨s, exec_keyup_of_none hk, by rw [modeAfter, hk]⟩
    | some sym => exact ⟨_, exec_keyup_of_some hk, by rw [modeAfter, hk, releaseOnMatch_mode]⟩
  | reld _ | pressmDial | pressmRing | pressmBusy | relmDial | relmRing | relmBusy | setamp _ | bindkey _ _ =>
    exact ⟨_, rfl, rfl⟩
  | render _ => cases hport

/-- Settles O1: the lookup decides between the digit and the fault. -/
theorem pressdStartsTheDigitOrRaises : Obligations.PressdStartsTheDigitOrRaises :=
  ⟨fun _ _ _ hl => exec_pressd_of_some hl, fun _ _ hl => exec_pressd_of_none hl⟩

/-- Settles O3: this hardware's policy is ALWAYS, and MATCH compares the symbol with `LASTSYM`. -/
theorem reldClearsUnderThePolicy : Obligations.ReldClearsUnderThePolicy :=
  ⟨fun _ _ => rfl, releaseDigit_always, fun _ _ h => releaseOnMatch_of_eq h, fun _ _ h => releaseOnMatch_of_ne h⟩

/-- Settles O4: each kind's arm writes its mode. -/
theorem pressmSetsTheKind : Obligations.PressmSetsTheKind :=
  fun _ => ⟨rfl, rfl, rfl⟩

/-- Settles O5: no kind's arm reads the mode. -/
theorem relmAlwaysSetsIdle : Obligations.RelmAlwaysSetsIdle :=
  fun _ => ⟨rfl, rfl, rfl⟩

/-- Settles O8: the row of the key decides whether it is a press, and PRESSD's two cases what the press does. -/
theorem keydnPressesTheBoundSymbol : Obligations.KeydnPressesTheBoundSymbol :=
  ⟨fun _ _ hk => exec_keydn_of_none hk, fun _ _ _ hk => exec_keydn_of_some hk,
    fun _ _ _ _ hk hl => (exec_keydn_of_some hk).trans (exec_pressd_of_some hl),
    fun _ _ _ hk hl => (exec_keydn_of_some hk).trans (exec_pressd_of_none hl)⟩

/-- Settles O9: a bound key's release is the release on a match of its symbol. -/
theorem keyupClearsOnlyOnAMatch : Obligations.KeyupClearsOnlyOnAMatch := by
  constructor
  · intro key sym s hk hlast
    rw [exec_keyup_of_some hk, releaseOnMatch_of_eq hlast]
    rfl
  · intro key s hother
    cases hk : s.keymap.read key.toNat with
    | none => exact exec_keyup_of_none hk
    | some sym => rw [exec_keyup_of_some hk, releaseOnMatch_of_ne (hother sym hk)]

end Sys2Proof.Machine
end

section
/-! SUPPORT. The sine of a phase index (R78): the tables and symmetries of R79 are exact, and the integer sine lies within its
error of it (log entry 6). -/

namespace Sys2Proof.Machine

/-- The sine of R78 at a phase index: the term of `Ideal.sineSum`. -/
noncomputable abbrev phaseSine (fs p : Nat) : ℝ := Real.sin (2 * Real.pi * (p : ℝ) / (fs : ℝ))

@[simp] theorem sineSum_nil (fs : Nat) : Ideal.sineSum fs [] = 0 := rfl

@[simp] theorem sineSum_cons (fs p : Nat) (ps : List Nat) :
    Ideal.sineSum fs (p :: ps) = phaseSine fs p + Ideal.sineSum fs ps := rfl

/-! The two tables. Each row outside the first quarter of the turn is mirrored into it. -/

theorem sin_of_twelfthSine {k : Nat} {a b : Int} (h : twelfthSine k = some (a, b)) :
    Real.sin (Real.pi * k / 6) = (a + b * Real.sqrt 5) / 4 := by
  unfold twelfthSine at h
  split at h <;> cases h <;> push_cast
  case h_1 => simp
  case h_2 => rw [show Real.pi * 6 / 6 = Real.pi by ring, Real.sin_pi]; norm_num
  case h_3 => rw [mul_one, Real.sin_pi_div_six]; norm_num
  case h_4 => rw [show Real.pi * 5 / 6 = Real.pi - Real.pi / 6 by ring, Real.sin_pi_sub, Real.sin_pi_div_six]; norm_num
  case h_5 => rw [show Real.pi * 3 / 6 = Real.pi / 2 by ring, Real.sin_pi_div_two]; norm_num
  case h_6 => rw [show Real.pi * 7 / 6 = Real.pi / 6 + Real.pi by ring, Real.sin_add_pi, Real.sin_pi_div_six]; norm_num
  case h_7 =>
    rw [show Real.pi * 11 / 6 = 2 * Real.pi - Real.pi / 6 by ring, Real.sin_two_pi_sub, Real.sin_pi_div_six]; norm_num
  case h_8 => rw [show Real.pi * 9 / 6 = Real.pi / 2 + Real.pi by ring, Real.sin_add_pi, Real.sin_pi_div_two]; norm_num

theorem sin_three_mul_pi_div_ten : Real.sin (Real.pi * 3 / 10) = (1 + Real.sqrt 5) / 4 := by
  rw [show Real.pi * 3 / 10 = Real.pi / 2 - Real.pi / 5 by ring, Real.sin_pi_div_two_sub, Real.cos_pi_div_five]

theorem sin_pi_div_ten : Real.sin (Real.pi / 10) = (-1 + Real.sqrt 5) / 4 := by
  have hsq : Real.sqrt 5 ^ 2 = 5 := Real.sq_sqrt (by norm_num)
  rw [show Real.pi / 10 = Real.pi / 2 - 2 * (Real.pi / 5) by ring, Real.sin_pi_div_two_sub, Real.cos_two_mul,
    Real.cos_pi_div_five]
  linear_combination hsq / 8

theorem sin_of_twentiethSine {k : Nat} {a b : Int} (h : twentiethSine k = some (a, b)) :
    Real.sin (Real.pi * k / 10) = (a + b * Real.sqrt 5) / 4 := by
  unfold twentiethSine at h
  split at h <;> cases h <;> push_cast
  case h_1 => rw [mul_one, sin_pi_div_ten]; ring
  case h_2 => rw [show Real.pi * 9 / 10 = Real.pi - Real.pi / 10 by ring, Real.sin_pi_sub, sin_pi_div_ten]; ring
  case h_3 => rw [sin_three_mul_pi_div_ten]; ring
  case h_4 =>
    rw [show Real.pi * 7 / 10 = Real.pi - Real.pi * 3 / 10 by ring, Real.sin_pi_sub, sin_three_mul_pi_div_ten]; ring
  case h_5 => rw [show Real.pi * 11 / 10 = Real.pi / 10 + Real.pi by ring, Real.sin_add_pi, sin_pi_div_ten]; ring
  case h_6 => rw [show Real.pi * 19 / 10 = 2 * Real.pi - Real.pi / 10 by ring, Real.sin_two_pi_sub, sin_pi_div_ten]; ring
  case h_7 =>
    rw [show Real.pi * 13 / 10 = Real.pi * 3 / 10 + Real.pi by ring, Real.sin_add_pi, sin_three_mul_pi_div_ten]; ring
  case h_8 =>
    rw [show Real.pi * 17 / 10 = 2 * Real.pi - Real.pi * 3 / 10 by ring, Real.sin_two_pi_sub, sin_three_mul_pi_div_ten]
    ring

/-- A phase that is a whole number of `m`-ths of the turn. -/
theorem phase_of_mul_mod {fs p m : Nat} (hfs : 0 < fs) (hm : 0 < m) (h : m * p % fs = 0) :
    (p : ℝ) / fs = ((m * p / fs : Nat) : ℝ) / m := by
  have hwhole : m * p / fs * fs = m * p := Nat.div_mul_cancel (Nat.dvd_of_mod_eq_zero h)
  rw [div_eq_div_iff (by positivity) (by positivity), mul_comm]
  exact_mod_cast hwhole.symm

theorem phaseSine_of_exactSine {fs p : Nat} {a b : Int} (hfs : 0 < fs) (h : exactSine fs p = some (a, b)) :
    phaseSine fs p = (a + b * Real.sqrt 5) / 4 := by
  unfold exactSine at h
  rw [phaseSine, mul_div_assoc]
  split at h
  · rename_i hmod
    rw [phase_of_mul_mod hfs (by norm_num) hmod, ← sin_of_twelfthSine h]
    push_cast
    ring_nf
  · split at h
    · rename_i hmod
      rw [phase_of_mul_mod hfs (by norm_num) hmod, ← sin_of_twentiethSine h]
      push_cast
      ring_nf
    · cases h

theorem sineSum_of_exactSum {fs : Nat} (hfs : 0 < fs) {ps : List Nat} {a b : Int} (h : exactSum fs ps = some (a, b)) :
    Ideal.sineSum fs ps = (a + b * Real.sqrt 5) / 4 := by
  induction ps generalizing a b with
  | nil =>
    cases h
    simp
  | cons p ps ih =>
    rw [exactSum] at h
    split at h
    · rename_i x y hx hy
      cases h
      rw [sineSum_cons, phaseSine_of_exactSine hfs hx, ih hy]
      push_cast
      ring
    · cases h

/-! The symmetries of R79 -/

/-- Phases that add up to a whole number of turns. -/
theorem phaseSine_add_of_turns {fs p q : Nat} (hfs : 0 < fs) (h : (p + q) % fs = 0) :
    phaseSine fs p + phaseSine fs q = 0 := by
  obtain ⟨k, hk⟩ := Nat.dvd_of_mod_eq_zero h
  have hk' : (p : ℝ) + q = fs * k := by exact_mod_cast hk
  have hangle : 2 * Real.pi * q / fs = k * (2 * Real.pi) - 2 * Real.pi * p / fs := by
    field_simp
    linear_combination hk'
  rw [phaseSine, phaseSine, hangle, Real.sin_nat_mul_two_pi_sub, add_neg_cancel]

/-- Phases half a turn apart. -/
theorem phaseSine_add_of_half_turn {fs p q : Nat} (hfs : 0 < fs) (h : (2 * p + fs) % (2 * fs) = 2 * q % (2 * fs)) :
    phaseSine fs p + phaseSine fs q = 0 := by
  obtain ⟨k, hk⟩ := Nat.modEq_iff_dvd.1 h
  have hk' : 2 * (q : ℝ) - (2 * p + fs) = 2 * fs * k := by exact_mod_cast hk
  have hangle : 2 * Real.pi * q / fs = 2 * Real.pi * p / fs + Real.pi + k * (2 * Real.pi) := by
    field_simp
    linear_combination hk'
  rw [phaseSine, phaseSine, hangle, Real.sin_add_int_mul_two_pi, Real.sin_add_pi, add_neg_cancel]

theorem phaseSine_add_of_oppositePhases {fs p q : Nat} (hfs : 0 < fs) (h : oppositePhases fs p q = true) :
    phaseSine fs p + phaseSine fs q = 0 := by
  rw [oppositePhases, Bool.or_eq_true, decide_eq_true_eq, decide_eq_true_eq] at h
  exact h.elim (phaseSine_add_of_turns hfs) (phaseSine_add_of_half_turn hfs)

/-- What a rational answer rests on: two opposite phases, or a sum of table values without `√5`. -/
theorem quarters_cases {fs : Nat} {ps : List Nat} {a : Int} (h : quarters fs ps = some a) :
    (∃ p q, ps = [p, q] ∧ oppositePhases fs p q = true ∧ a = 0) ∨ exactSum fs ps = some (a, 0) := by
  have htabled : ∀ qs, (match exactSum fs qs with
      | some (a, b) => if b = 0 then some a else none
      | none => none) = some a → exactSum fs qs = some (a, 0) := by
    intro qs hqs
    split at hqs
    · split at hqs
      · simp_all
      · cases hqs
    · cases hqs
  unfold quarters at h
  dsimp only at h
  split at h
  · split at h
    · rename_i p q hopp
      cases h
      exact .inl ⟨p, q, rfl, hopp, rfl⟩
    · exact .inr (htabled _ h)
  · exact .inr (htabled _ h)

theorem sineSum_of_quarters {fs : Nat} (hfs : 0 < fs) {ps : List Nat} {a : Int} (h : quarters fs ps = some a) :
    Ideal.sineSum fs ps = a / 4 := by
  rcases quarters_cases h with ⟨p, q, rfl, hopp, rfl⟩ | hsum
  · simpa using phaseSine_add_of_oppositePhases hfs hopp
  · simpa using sineSum_of_exactSum hfs hsum

/-- Settles O42: the tables by the sines of 30°, 90°, 18° and 54°, a rational sum by the tables or by opposite phases. -/
theorem exactSinesAreTheRealSine : Obligations.ExactSinesAreTheRealSine :=
  ⟨fun _ _ _ _ hfs _ h => phaseSine_of_exactSine hfs h, fun _ _ _ hfs _ h => sineSum_of_quarters hfs h⟩

/-! The integer sine -/

theorem fixedSine_near {w fs p : Nat} (hw : 64 ≤ w) (hfs : 0 < fs) (hp : p < fs) :
    |(fixedSine w fs p : ℝ) - 2 ^ w * phaseSine fs p| ≤ (sineError w : ℝ) := by
  unfold fixedSine
  split
  · have hmirror := halfSine_near hw hfs (x := 2 * (fs - p)) (by omega)
    have hangle : Real.pi * (2 * (fs - p) : Nat) / fs = 2 * Real.pi - 2 * Real.pi * p / fs := by
      push_cast [Nat.cast_sub hp.le]
      field_simp
    rw [hangle, Real.sin_two_pi_sub, ← abs_neg] at hmirror
    convert hmirror using 2
    push_cast
    ring
  · have hdirect := halfSine_near hw hfs (x := 2 * p) (by omega)
    have hangle : Real.pi * (2 * p : Nat) / fs = 2 * Real.pi * p / fs := by
      push_cast
      ring
    rwa [hangle] at hdirect

/-- The error of a sum is that of each of its terms. -/
theorem fixedSum_near {w fs : Nat} (hw : 64 ≤ w) (hfs : 0 < fs) {ps : List Nat} (hps : ∀ p ∈ ps, p < fs) :
    |(fixedSum w fs ps : ℝ) - 2 ^ w * Ideal.sineSum fs ps| ≤ sineError w * ps.length := by
  induction ps with
  | nil => simp
  | cons p ps ih =>
    obtain ⟨hp, hrest⟩ := List.forall_mem_cons.1 hps
    rw [fixedSum_cons, sineSum_cons, List.length_cons]
    have hsplit : ((fixedSine w fs p + fixedSum w fs ps : Int) : ℝ) - 2 ^ w * (phaseSine fs p + Ideal.sineSum fs ps) =
        (fixedSine w fs p - 2 ^ w * phaseSine fs p) + (fixedSum w fs ps - 2 ^ w * Ideal.sineSum fs ps) := by
      push_cast
      ring
    rw [hsplit]
    refine (abs_add_le _ _).trans ((add_le_add (fixedSine_near hw hfs hp) (ih hrest)).trans_eq ?_)
    push_cast
    ring

/-- Settles O43: the second half of the turn is the first with its sign changed. -/
theorem fixedSineIsWithinItsError : Obligations.FixedSineIsWithinItsError :=
  fun _ _ _ hw hfs hp => fixedSine_near hw hfs hp

end Sys2Proof.Machine
end

section
/-! SUPPORT. The roundings of a real number (R84, log entry 26): monotone, exact on integers, and each jump of a rounding lies at
a half or whole integer. Toward zero and to the nearest are one rounding, away from which the shift is 0 or 1/2. -/

namespace Sys2Proof.Machine

/-- The integer part toward zero of `y` moved by `shift` away from zero. -/
noncomputable def roundShifted (shift y : ℝ) : ℤ := if 0 ≤ y then ⌊y + shift⌋ else ⌈y - shift⌉

theorem idealRound_towardZero (y : ℝ) : Ideal.round .towardZero y = roundShifted 0 y := by
  simp [Ideal.round, Ideal.trunc, roundShifted]

theorem idealRound_nearest (y : ℝ) : Ideal.round .nearest y = roundShifted (1 / 2) y := by
  simp only [Ideal.round, Ideal.trunc, roundShifted]
  by_cases hy : 0 ≤ y
  · rw [if_pos hy, if_pos hy, if_pos (by linarith)]
  · rw [if_neg hy, if_neg hy, if_neg (by linarith), sub_eq_add_neg]

section Shifted

variable {shift : ℝ} (h0 : 0 ≤ shift) (h1 : shift < 1)

include h0 h1

/-- Above zero the rounding reaches `m` at `m - shift`. -/
theorem le_roundShifted_iff {m : ℤ} (hm : 0 < m) (y : ℝ) : m ≤ roundShifted shift y ↔ (m : ℝ) - shift ≤ y := by
  have hm' : (1 : ℝ) ≤ m := by exact_mod_cast hm
  unfold roundShifted
  split
  · rw [Int.le_floor, sub_le_iff_le_add]
  · rw [Int.le_ceil_iff]
    constructor <;> intro _ <;> linarith

/-- Below zero the rounding reaches `m` at `m + shift`. -/
theorem roundShifted_le_iff {m : ℤ} (hm : m < 0) (y : ℝ) : roundShifted shift y ≤ m ↔ y ≤ (m : ℝ) + shift := by
  have hm' : (m : ℝ) ≤ -1 := by exact_mod_cast (by omega : m ≤ -1)
  unfold roundShifted
  split
  · rw [← Int.lt_add_one_iff, Int.floor_lt]
    push_cast
    constructor <;> intro _ <;> linarith
  · rw [Int.ceil_le, sub_le_iff_le_add]

theorem roundShifted_mono {x y : ℝ} (hxy : x ≤ y) : roundShifted shift x ≤ roundShifted shift y := by
  rcases lt_or_ge 0 (roundShifted shift x) with hx | hx
  · exact (le_roundShifted_iff h0 h1 hx y).2 (((le_roundShifted_iff h0 h1 hx x).1 le_rfl).trans hxy)
  · rcases lt_or_ge (roundShifted shift y) 0 with hy | hy
    · exact (roundShifted_le_iff h0 h1 hy x).2 (hxy.trans ((roundShifted_le_iff h0 h1 hy y).1 le_rfl))
    · exact hx.trans hy

/-- Two values that round differently have a jump between them, at the rounding that lies farther from zero; with a shift
that is a half or whole integer, so is the jump. -/
theorem roundShifted_jump {j : ℤ} (hj : (j : ℝ) = 2 * shift) {lo hi : ℝ}
    (hlt : roundShifted shift lo < roundShifted shift hi) :
    ∃ k : ℤ, lo ≤ (k : ℝ) / 2 ∧ (k : ℝ) / 2 ≤ hi ∧ roundShifted shift ((k : ℝ) / 2) =
      if (roundShifted shift lo).natAbs < (roundShifted shift hi).natAbs then roundShifted shift hi
      else roundShifted shift lo := by
  split
  · have hpos : 0 < roundShifted shift hi := by omega
    have hreach := (le_roundShifted_iff h0 h1 hpos hi).1 le_rfl
    have hnot : ¬ (roundShifted shift hi : ℝ) - shift ≤ lo := fun h =>
      hlt.not_ge ((le_roundShifted_iff h0 h1 hpos lo).2 h)
    have hk : ((2 * roundShifted shift hi - j : ℤ) : ℝ) / 2 = roundShifted shift hi - shift := by
      push_cast
      linarith
    refine ⟨2 * roundShifted shift hi - j, ?_⟩
    rw [hk]
    exact ⟨(not_le.1 hnot).le, hreach,
      le_antisymm (roundShifted_mono h0 h1 hreach) ((le_roundShifted_iff h0 h1 hpos _).2 le_rfl)⟩
  · have hneg : roundShifted shift lo < 0 := by omega
    have hreach := (roundShifted_le_iff h0 h1 hneg lo).1 le_rfl
    have hnot : ¬ hi ≤ (roundShifted shift lo : ℝ) + shift := fun h =>
      hlt.not_ge ((roundShifted_le_iff h0 h1 hneg hi).2 h)
    have hk : ((2 * roundShifted shift lo + j : ℤ) : ℝ) / 2 = roundShifted shift lo + shift := by
      push_cast
      linarith
    refine ⟨2 * roundShifted shift lo + j, ?_⟩
    rw [hk]
    exact ⟨hreach, (not_le.1 hnot).le,
      le_antisymm ((roundShifted_le_iff h0 h1 hneg _).2 le_rfl) (roundShifted_mono h0 h1 hreach)⟩

end Shifted

theorem idealRound_mono (r : Rounding) {x y : ℝ} (hxy : x ≤ y) : Ideal.round r x ≤ Ideal.round r y := by
  cases r with
  | towardZero =>
    rw [idealRound_towardZero, idealRound_towardZero]
    exact roundShifted_mono le_rfl one_pos hxy
  | down => exact Int.floor_mono hxy
  | nearest =>
    rw [idealRound_nearest, idealRound_nearest]
    exact roundShifted_mono (by norm_num) (by norm_num) hxy

theorem floor_intCast_div (a : Int) {d : Int} (hd : 0 < d) : ⌊(a : ℝ) / d⌋ = a / d := by
  rw [Int.floor_div_cast_of_nonneg hd.le, Int.floor_intCast]

/-- The rounding of a fraction, on integers and over the reals. -/
theorem roundQuot_eq_idealRound (r : Rounding) (a : Int) {d : Int} (hd : 0 < d) :
    roundQuot r a d = Ideal.round r ((a : ℝ) / d) := by
  have hd' : (0 : ℝ) < d := by exact_mod_cast hd
  have hsign : 0 ≤ (a : ℝ) / d ↔ 0 ≤ a := by rw [le_div_iff₀ hd', zero_mul, Int.cast_nonneg_iff]
  cases r with
  | towardZero =>
    simp only [roundQuot, idealRound_towardZero, roundShifted, hsign, add_zero, sub_zero]
    split
    · rename_i ha
      rw [floor_intCast_div a hd, Int.tdiv_eq_ediv_of_nonneg ha]
    · have hneg : 0 ≤ -a := by omega
      rw [← neg_neg ((a : ℝ) / d), Int.ceil_neg, ← neg_div, ← Int.cast_neg, floor_intCast_div (-a) hd,
        ← Int.tdiv_eq_ediv_of_nonneg hneg, Int.neg_tdiv, neg_neg]
  | down => exact (floor_intCast_div a hd).symm
  | nearest =>
    simp only [roundQuot, idealRound_nearest, roundShifted, hsign]
    split
    · rw [← floor_intCast_div (2 * a + d) (by omega)]
      congr 1
      push_cast
      field_simp
    · rw [← floor_intCast_div (d - 2 * a) (by omega), ← Int.ceil_neg]
      congr 1
      push_cast
      field_simp
      ring

@[simp] theorem idealRound_intCast (r : Rounding) (m : Int) : Ideal.round r m = m := by
  have h := roundQuot_eq_idealRound r m one_pos
  rw [Int.cast_one, div_one] at h
  rw [← h]
  cases r with
  | towardZero => simp [roundQuot]
  | down => simp [roundQuot]
  | nearest =>
    simp only [roundQuot]
    split <;> omega

@[simp] theorem idealRound_zero (r : Rounding) : Ideal.round r 0 = 0 := by simpa using idealRound_intCast r 0

/-- A value no larger than an integer rounds to one no larger. -/
theorem abs_idealRound_le (r : Rounding) {y : ℝ} {m : Int} (h : |y| ≤ m) : |Ideal.round r y| ≤ m := by
  obtain ⟨hlo, hhi⟩ := abs_le.1 h
  have hlow := idealRound_mono r hlo
  have hhigh := idealRound_mono r hhi
  rw [← Int.cast_neg, idealRound_intCast] at hlow
  rw [idealRound_intCast] at hhigh
  exact abs_le.2 ⟨hlow, hhigh⟩

/-- Between two values that round differently lies a half integer that rounds to the answer of `atJump`. -/
theorem exists_jump (r : Rounding) {lo hi : ℝ} (hle : lo ≤ hi) (hne : Ideal.round r lo ≠ Ideal.round r hi) :
    ∃ k : Int, lo ≤ (k : ℝ) / 2 ∧ (k : ℝ) / 2 ≤ hi ∧
      Ideal.round r ((k : ℝ) / 2) = atJump r (Ideal.round r lo, Ideal.round r hi) := by
  have hlt : Ideal.round r lo < Ideal.round r hi := lt_of_le_of_ne (idealRound_mono r hle) hne
  cases r with
  | towardZero =>
    simp only [idealRound_towardZero] at *
    exact roundShifted_jump le_rfl one_pos (j := 0) (by norm_num) hlt
  | down =>
    have hk : ((2 * ⌊hi⌋ : Int) : ℝ) / 2 = (⌊hi⌋ : ℝ) := by push_cast; ring
    refine ⟨2 * ⌊hi⌋, ?_⟩
    rw [hk]
    exact ⟨(Int.floor_lt.1 hlt).le, Int.floor_le hi, idealRound_intCast .down ⌊hi⌋⟩
  | nearest =>
    simp only [idealRound_nearest] at *
    exact roundShifted_jump (by norm_num) (by norm_num) (j := 1) (by norm_num) hlt

end Sys2Proof.Machine
end

section
/-! SUPPORT. The real sine's sample before saturation is the rounded ideal value (R84, R87): at every precision the enclosure
holds the ideal value, and at the last it is too narrow for any jump of the rounding but the ideal value itself (log entry 6). -/

namespace Sys2Proof.Machine

/-! How many bits separate -/

/-- The bits of the bound on the coefficients' sum in `separationBits`. -/
def heightBits (ps : List Nat) (ampl : Int) : Nat := Nat.log2 (4 * ps.length * ampl.natAbs + 4) + 1

theorem separationBits_eq (fs : Nat) (ps : List Nat) (ampl : Int) :
    separationBits fs ps ampl = 2 * (4 * fs + 1) * heightBits ps ampl := rfl

theorem lt_two_pow_heightBits (ps : List Nat) (ampl : Int) : 4 * ps.length * ampl.natAbs + 4 < 2 ^ heightBits ps ampl :=
  Nat.lt_log2_self

theorem sineError_cast (w : Nat) : (sineError w : ℝ) = 3 * w + 32 := by simp [sineError]

theorem sineError_lt_two_pow_half {w : Nat} (hw : 64 ≤ w) : 3 * w + 32 < 2 ^ (w / 2) := by
  have hgrow : ∀ n ≥ 32, 6 * n + 35 < 2 ^ n := by
    intro n hn
    induction n, hn using Nat.le_induction with
    | base => norm_num
    | succ n _ ih => rw [pow_succ]; omega
  have := hgrow (w / 2) (by omega)
  omega

/-- From the separating precision on, twice the width of the enclosure is below the separation of `idealValue_separated`. -/
theorem width_mul_height_lt {fs w : Nat} {ps : List Nat} {ampl : Int} (hw : 64 ≤ w) (hsep : separationBits fs ps ampl ≤ w) :
    4 * ps.length * ampl.natAbs * (3 * w + 32) * (2 ^ heightBits ps ampl) ^ (4 * fs) < 2 ^ w := by
  have hheight := lt_two_pow_heightBits ps ampl
  have hhalf : heightBits ps ampl + heightBits ps ampl * (4 * fs) ≤ w / 2 := by
    rw [separationBits_eq] at hsep
    have : 2 * (4 * fs + 1) * heightBits ps ampl = 2 * (heightBits ps ampl + heightBits ps ampl * (4 * fs)) := by ring
    omega
  calc 4 * ps.length * ampl.natAbs * (3 * w + 32) * (2 ^ heightBits ps ampl) ^ (4 * fs)
      ≤ 2 ^ heightBits ps ampl * (3 * w + 32) * (2 ^ heightBits ps ampl) ^ (4 * fs) := by
        gcongr
        omega
    _ = (3 * w + 32) * 2 ^ (heightBits ps ampl + heightBits ps ampl * (4 * fs)) := by rw [pow_add, pow_mul]; ring
    _ ≤ (3 * w + 32) * 2 ^ (w / 2) := by gcongr; norm_num
    _ < 2 ^ (w / 2) * 2 ^ (w / 2) := by gcongr; exact sineError_lt_two_pow_half hw
    _ ≤ 2 ^ w := by
        rw [← pow_add]
        exact Nat.pow_le_pow_right (by norm_num) (by omega)

/-- In particular the enclosure is narrower than a half. -/
theorem width_lt {fs w : Nat} {ps : List Nat} {ampl : Int} (hw : 64 ≤ w) (hsep : separationBits fs ps ampl ≤ w) :
    4 * ps.length * ampl.natAbs * (3 * w + 32) < 2 ^ w :=
  (Nat.le_mul_of_pos_right _ (by positivity)).trans_lt (width_mul_height_lt hw hsep)

/-- Settles O45: the height of twice the ideal value less `k` is at most `2 ^ heightBits`. -/
theorem lastPrecisionSeparatesIntegers : Obligations.LastPrecisionSeparatesIntegers := by
  intro fs w ps ampl k hfs hw hsep hk hne
  have hheight : 2 * ps.length * |(ampl : ℝ)| + |(k : ℝ)| ≤ 2 ^ heightBits ps ampl := by
    have hk' : |(k : ℝ)| ≤ 2 * (ps.length * |(ampl : ℝ)| + 1) := by exact_mod_cast hk
    have hbits : 4 * ps.length * |(ampl : ℝ)| + 4 < 2 ^ heightBits ps ampl := by
      rw [← Int.cast_abs, ← Nat.cast_natAbs]
      exact_mod_cast lt_two_pow_heightBits ps ampl
    linarith
  have hone : (1 : ℝ) ≤ 2 ^ heightBits ps ampl := one_le_pow₀ (by norm_num)
  have hsepared := Laws.idealValue_separated fs ps ampl k hfs hne hone hheight
  have hwidth : 4 * ps.length * |(ampl : ℝ)| * (3 * w + 32) * (2 ^ heightBits ps ampl) ^ (4 * fs) < 2 ^ w := by
    rw [← Int.cast_abs, ← Nat.cast_natAbs]
    exact_mod_cast width_mul_height_lt hw hsep
  rw [sineError_cast]
  generalize |2 * ((ampl : ℝ) * Ideal.sineSum fs ps) - (k : ℝ)| = dist at hsepared ⊢
  generalize hH : ((2 : ℝ) ^ heightBits ps ampl) ^ (4 * fs) = H at hsepared hwidth
  have hH0 : 0 < H := by rw [← hH]; positivity
  refine lt_of_mul_lt_mul_right (a := H) ?_ hH0.le
  calc 4 * (ps.length * |(ampl : ℝ)| * (3 * w + 32)) * H = 4 * ps.length * |(ampl : ℝ)| * (3 * w + 32) * H := by ring
    _ < 2 ^ w := hwidth
    _ ≤ 2 ^ w * (dist * H) := le_mul_of_one_le_right (by positivity) hsepared
    _ = 2 ^ w * dist * H := by ring

/-! The enclosure -/

/-- `lo .. hi` is the enclosure of the ideal value whose ends `roundBounds` rounds. -/
structure Encloses (w fs : Nat) (ps : List Nat) (ampl : Int) (lo hi : ℝ) : Prop where
  lo_le : lo ≤ ampl * Ideal.sineSum fs ps
  le_hi : ampl * Ideal.sineSum fs ps ≤ hi
  width : 2 ^ w * (hi - lo) = 2 * (ps.length * |(ampl : ℝ)| * sineError w)
  bounds : ∀ r, roundBounds r w fs ps ampl = (Ideal.round r lo, Ideal.round r hi)

theorem halfWidth_cast (w : Nat) (ps : List Nat) (ampl : Int) :
    ((sineError w * ps.length * ampl.natAbs : Int) : ℝ) = ps.length * |(ampl : ℝ)| * sineError w := by
  simp only [Int.cast_mul, Int.cast_natCast, Nat.cast_natAbs, Int.cast_abs, Int.cast_id]
  ring

/-- The middle of the enclosure is within its half width of the ideal value, in units. -/
theorem mid_near {w fs : Nat} {ps : List Nat} (ampl : Int) (hw : 64 ≤ w) (hfs : 0 < fs) (hps : ∀ p ∈ ps, p < fs) :
    |((ampl * fixedSum w fs ps : Int) : ℝ) - 2 ^ w * (ampl * Ideal.sineSum fs ps)| ≤
      ((sineError w * ps.length * ampl.natAbs : Int) : ℝ) := by
  have hsum := fixedSum_near hw hfs hps
  calc |((ampl * fixedSum w fs ps : Int) : ℝ) - 2 ^ w * (ampl * Ideal.sineSum fs ps)|
      = |(ampl : ℝ)| * |(fixedSum w fs ps : ℝ) - 2 ^ w * Ideal.sineSum fs ps| := by
        rw [← abs_mul]
        push_cast
        ring_nf
    _ ≤ |(ampl : ℝ)| * (sineError w * ps.length) := by gcongr
    _ = _ := by rw [halfWidth_cast]; ring

theorem exists_encloses {w fs : Nat} {ps : List Nat} (ampl : Int) (hw : 64 ≤ w) (hfs : 0 < fs) (hps : ∀ p ∈ ps, p < fs) :
    ∃ lo hi, Encloses w fs ps ampl lo hi := by
  have hunit : (0 : ℝ) < 2 ^ w := by positivity
  have hnear := mid_near ampl hw hfs hps
  have herr := halfWidth_cast w ps ampl
  have hbounds : ∀ r, roundBounds r w fs ps ampl =
      (roundQuot r (ampl * fixedSum w fs ps - sineError w * ps.length * ampl.natAbs) (2 ^ w),
        roundQuot r (ampl * fixedSum w fs ps + sineError w * ps.length * ampl.natAbs) (2 ^ w)) := fun _ => rfl
  generalize ampl * fixedSum w fs ps = mid at hnear hbounds
  generalize sineError w * ps.length * ampl.natAbs = err at hnear herr hbounds
  obtain ⟨hbelow, habove⟩ := abs_le.1 hnear
  refine ⟨((mid : ℝ) - err) / 2 ^ w, (mid + err) / 2 ^ w, ?_, ?_, ?_, fun r => ?_⟩
  · rw [div_le_iff₀ hunit]
    linarith
  · rw [le_div_iff₀ hunit]
    linarith
  · rw [← herr]
    field_simp
    ring
  · rw [hbounds, roundQuot_eq_idealRound r _ (by positivity), roundQuot_eq_idealRound r _ (by positivity)]
    push_cast
    rfl

/-- Where both ends round alike, so does the ideal value. -/
theorem Encloses.round_eq {w fs : Nat} {ps : List Nat} {ampl : Int} {lo hi : ℝ} (h : Encloses w fs ps ampl lo hi) {r : Rounding}
    (hends : Ideal.round r lo = Ideal.round r hi) :
    Ideal.round r lo = Ideal.round r (ampl * Ideal.sineSum fs ps) :=
  le_antisymm (idealRound_mono r h.lo_le) (hends ▸ idealRound_mono r h.le_hi)

theorem abs_sineSum_le (fs : Nat) (ps : List Nat) : |Ideal.sineSum fs ps| ≤ ps.length := by
  induction ps with
  | nil => simp
  | cons p ps ih =>
    rw [sineSum_cons, List.length_cons]
    have hterm : |phaseSine fs p| ≤ 1 := Real.abs_sin_le_one _
    push_cast
    exact (abs_add_le _ _).trans (by linarith)

/-- An ideal value is no larger than the amplitude times the number of tones. -/
theorem abs_idealSum_le (fs : Nat) (ps : List Nat) (ampl : Int) :
    |(ampl : ℝ) * Ideal.sineSum fs ps| ≤ ps.length * |(ampl : ℝ)| := by
  rw [abs_mul, mul_comm]
  gcongr
  exact abs_sineSum_le fs ps

/-- From the separating precision on, a half integer inside the enclosure is the ideal value. -/
theorem Encloses.eq_of_mem {w fs : Nat} {ps : List Nat} {ampl : Int} {lo hi : ℝ} (h : Encloses w fs ps ampl lo hi)
    (hw : 64 ≤ w) (hfs : 0 < fs) (hsep : separationBits fs ps ampl ≤ w) {k : Int} (hlo : lo ≤ (k : ℝ) / 2)
    (hhi : (k : ℝ) / 2 ≤ hi) : (k : ℝ) / 2 = ampl * Ideal.sineSum fs ps := by
  have hunit : (0 : ℝ) < 2 ^ w := by positivity
  have hwidth : 4 * (ps.length * |(ampl : ℝ)| * (sineError w : ℝ)) < 2 ^ w := by
    rw [sineError_cast, ← mul_assoc, ← mul_assoc, ← Int.cast_abs, ← Nat.cast_natAbs]
    exact_mod_cast width_lt hw hsep
  have hnarrow : hi - lo ≤ 1 := by
    have hnonneg := mul_nonneg hunit.le (sub_nonneg.2 (h.lo_le.trans h.le_hi))
    refine le_of_mul_le_mul_left ?_ hunit
    linarith [h.width]
  obtain ⟨hvlo, hvhi⟩ := abs_le.1 (abs_idealSum_le fs ps ampl)
  have hk : |k| ≤ 2 * (ps.length * |ampl| + 1) := by
    have : |(k : ℝ)| ≤ 2 * (ps.length * |(ampl : ℝ)| + 1) :=
      abs_le.2 ⟨by linarith [h.lo_le, h.le_hi], by linarith [h.lo_le, h.le_hi]⟩
    exact_mod_cast this
  by_contra hne
  have hfar := lastPrecisionSeparatesIntegers fs w ps ampl k hfs hw hsep hk fun heq => hne (by linarith)
  have hclose : |2 * ((ampl : ℝ) * Ideal.sineSum fs ps) - k| ≤ 2 * (hi - lo) :=
    abs_le.2 ⟨by linarith [h.lo_le, h.le_hi], by linarith [h.lo_le, h.le_hi]⟩
  have := mul_le_mul_of_nonneg_left hclose hunit.le
  linarith [h.width]

@[simp] theorem atJump_self (r : Rounding) (z : Int) : atJump r (z, z) = z := by
  cases r <;> simp [atJump]

/-- The last precision settles the rounding: where the ends round differently the jump between them is the ideal value. -/
theorem atJump_roundBounds {r : Rounding} {w fs : Nat} {ps : List Nat} {ampl : Int} (hw : 64 ≤ w) (hfs : 0 < fs)
    (hps : ∀ p ∈ ps, p < fs) (hsep : separationBits fs ps ampl ≤ w) :
    atJump r (roundBounds r w fs ps ampl) = Ideal.round r (ampl * Ideal.sineSum fs ps) := by
  obtain ⟨lo, hi, h⟩ := exists_encloses ampl hw hfs hps
  rw [h.bounds r]
  by_cases hends : Ideal.round r lo = Ideal.round r hi
  · rw [← hends, atJump_self, h.round_eq hends]
  · obtain ⟨k, hlo, hhi, hround⟩ := exists_jump r (h.lo_le.trans h.le_hi) hends
    rw [← hround, h.eq_of_mem hw hfs hsep hlo hhi]

/-- The last of the doubled precisions is at least `separationBits`. -/
theorem separationBits_le_last (fs : Nat) (ps : List Nat) (ampl : Int) {w : Nat} (hw : 0 < w) :
    separationBits fs ps ampl ≤ w * 2 ^ (Nat.log2 (separationBits fs ps ampl) + 1) :=
  Nat.lt_log2_self.le.trans (Nat.le_mul_of_pos_left _ hw)

theorem settle_eq_idealRound (r : Rounding) {fs : Nat} {ps : List Nat} (ampl : Int) (hfs : 0 < fs) (hps : ∀ p ∈ ps, p < fs)
    {w : Nat} (hw : 64 ≤ w) :
    settle r fs ps ampl (Nat.log2 (separationBits fs ps ampl) + 1) w = Ideal.round r (ampl * Ideal.sineSum fs ps) := by
  rcases settle_cases r fs ps ampl (Nat.log2 (separationBits fs ps ampl) + 1) w with ⟨v, hv, hends, hset⟩ | hset <;>
    rw [hset]
  · obtain ⟨lo, hi, h⟩ := exists_encloses ampl (hw.trans hv) hfs hps
    rw [h.bounds r] at hends ⊢
    exact h.round_eq hends
  · exact atJump_roundBounds (hw.trans (Nat.le_mul_of_pos_right _ (by positivity))) hfs hps
      (separationBits_le_last fs ps ampl (by omega))

/-- `roundedReal` is the rounding of the ideal value, by the exact sums or by the precision that settles it. -/
theorem roundedReal_eq_idealRound (r : Rounding) {fs : Nat} {ps : List Nat} (ampl : Int) (hfs : 0 < fs)
    (hps : ∀ p ∈ ps, p < fs) : roundedReal r fs ps ampl = Ideal.round r (ampl * Ideal.sineSum fs ps) := by
  cases hq : quarters fs ps with
  | some a =>
    rw [roundedReal_of_quarters ampl hq, roundQuot_eq_idealRound r _ (by norm_num), sineSum_of_quarters hfs hq]
    push_cast
    rw [mul_div_assoc]
  | none =>
    simp only [roundedReal, hq]
    exact settle_eq_idealRound r ampl hfs hps (by omega)

end Sys2Proof.Machine
end

section
/-! SUPPORT. The normative sample (R76, R77, R84): `SYNTH` is `Q` of the ideal value over the real numbers. -/

namespace Sys2Proof.Machine

/-- The value of `SINFN` at a phase index: the term of the sum whose rounding is the sample. -/
noncomputable def sineValue (c : Config) (p : Nat) : ℝ :=
  match c.sinFn with
  | .real => phaseSine c.fs p
  | .table den nums => (tableNum nums p : ℝ) / den

theorem sineValue_real {c : Config} (h : c.sinFn = .real) (p : Nat) : sineValue c p = phaseSine c.fs p := by
  simp [sineValue, h]

theorem sineValue_table {c : Config} {den : Nat} {nums : List Int} (h : c.sinFn = .table den nums) (p : Nat) :
    sineValue c p = (tableNum nums p : ℝ) / den := by
  simp [sineValue, h]

/-- The phase index is the phase but for whole turns (R78). -/
theorem sin_phaseIndex {fs : Nat} (hfs : 0 < fs) (f : Int) (n : Nat) :
    phaseSine fs (phaseIndex fs f n) = Real.sin (2 * Real.pi * f * (n / fs)) := by
  have hindex : ((phaseIndex fs f n : Nat) : Int) = f * n - fs * (f * n / fs) := by
    rw [phaseIndex, Int.toNat_of_nonneg (Int.emod_nonneg _ (by omega)), Int.emod_def]
  have hindex' : (phaseIndex fs f n : ℝ) = f * n - fs * ((f * n / fs : Int) : ℝ) := by exact_mod_cast hindex
  have hangle : 2 * Real.pi * f * (n / fs) =
      2 * Real.pi * (phaseIndex fs f n : ℝ) / fs + ((f * n / fs : Int) : ℝ) * (2 * Real.pi) := by
    rw [hindex']
    field_simp
    ring
  rw [hangle, Real.sin_add_int_mul_two_pi]

/-- The tone of R77 is `SINFN` at the phase index of R78. -/
theorem tone_eq_sineValue {c : Config} (hfs : 0 < c.fs) (f : Int) (n : Nat) :
    Ideal.tone c f n = sineValue c (phaseIndex c.fs f n) := by
  cases hs : c.sinFn with
  | real =>
    rw [sineValue_real hs, sin_phaseIndex hfs]
    simp [Ideal.tone, hs, Ideal.time]
  | table den nums =>
    rw [sineValue_table hs]
    simp [Ideal.tone, hs, phaseIndex]

theorem phases_lt {c : Config} (hfs : 0 < c.fs) (mode : Mode) (lo hi : Int) (n : Nat) :
    ∀ p ∈ phases c mode lo hi n, p < c.fs := by
  intro p hp
  obtain ⟨f, -, rfl⟩ := List.mem_map.1 hp
  exact phaseIndex_lt hfs f n

theorem sineSum_eq_sineValue {c : Config} (hs : c.sinFn = .real) (ps : List Nat) :
    Ideal.sineSum c.fs ps = (ps.map (sineValue c)).sum := by
  rw [funext (sineValue_real hs)]
  rfl

theorem tableSum_div_eq_sineValue {c : Config} {den : Nat} {nums : List Int} (hs : c.sinFn = .table den nums)
    (ps : List Nat) : (((ps.map (tableNum nums)).sum : Int) : ℝ) / den = (ps.map (sineValue c)).sum := by
  induction ps with
  | nil => simp
  | cons p ps ih =>
    simp only [List.map_cons, List.sum_cons, Int.cast_add, add_div, ih, sineValue_table hs]

theorem roundQuot_zero_right (r : Rounding) (a : Int) : roundQuot r a 0 = 0 := by
  cases r <;> simp [roundQuot]

theorem rounded_of_real {c : Config} (h : c.sinFn = .real) (ps : List Nat) (ampl : Int) :
    rounded c ps ampl = roundedReal c.round c.fs ps ampl := by
  simp [rounded, h]

theorem rounded_of_table {c : Config} {den : Nat} {nums : List Int} (h : c.sinFn = .table den nums) (ps : List Nat)
    (ampl : Int) : rounded c ps ampl = roundQuot c.round (ampl * (ps.map (tableNum nums)).sum) den := by
  simp [rounded, h]

/-- Under every `SINFN` and `ROUND` the sample before saturation is the rounded sum. -/
theorem rounded_eq_idealRound {c : Config} (hfs : 0 < c.fs) {ps : List Nat} (hps : ∀ p ∈ ps, p < c.fs) (ampl : Int) :
    rounded c ps ampl = Ideal.round c.round (ampl * (ps.map (sineValue c)).sum) := by
  cases hs : c.sinFn with
  | real => rw [rounded_of_real hs, roundedReal_eq_idealRound c.round ampl hfs hps, sineSum_eq_sineValue hs]
  | table den nums =>
    rw [rounded_of_table hs, ← tableSum_div_eq_sineValue hs, ← mul_div_assoc]
    rcases Nat.eq_zero_or_pos den with rfl | hden
    · simp [roundQuot_zero_right]
    · rw [roundQuot_eq_idealRound c.round _ (by exact_mod_cast hden)]
      push_cast
      rfl

/-! The cadences (R83), on indices and in seconds -/

/-- The remainder of a time by a period, in samples. -/
theorem realMod_time {fs period : Nat} (hfs : 0 < fs) (hperiod : 0 < period) (n : Nat) :
    Ideal.realMod ((n : ℝ) / fs) period = ((n % (period * fs) : Nat) : ℝ) / fs := by
  have hfloor : ⌊(n : ℝ) / fs / period⌋ = ((n / (period * fs) : Nat) : Int) := by
    rw [div_div, mul_comm, ← Nat.cast_mul, ← Int.natCast_floor_eq_floor (by positivity), Nat.floor_div_eq_div]
  have hsplit : (n : ℝ) = ((n % (period * fs) : Nat) : ℝ) + period * fs * ((n / (period * fs) : Nat) : ℝ) := by
    exact_mod_cast (Nat.mod_add_div n (period * fs)).symm
  rw [Ideal.realMod, hfloor, Int.cast_natCast]
  nth_rewrite 1 [hsplit]
  field_simp
  ring

theorem ringOn_iff {c : Config} (hfs : 0 < c.fs) (hperiod : 0 < c.ringPeriodS) (n : Nat) :
    ringOn c n = true ↔ Ideal.realMod (Ideal.time c n) c.ringPeriodS < c.ringOnS := by
  rw [Ideal.time, realMod_time hfs hperiod, div_lt_iff₀ (by exact_mod_cast hfs), ringOn, decide_eq_true_eq]
  exact_mod_cast Iff.rfl

theorem busyOn_iff {c : Config} (hfs : 0 < c.fs) (hperiod : 0 < c.busyPeriodS) (hden : 0 < c.busyOnDen) (n : Nat) :
    busyOn c n = true ↔ Ideal.realMod (Ideal.time c n) c.busyPeriodS < c.busyOnNum / c.busyOnDen := by
  rw [Ideal.time, realMod_time hfs hperiod, div_lt_div_iff₀ (by exact_mod_cast hfs) (by exact_mod_cast hden), mul_comm,
    busyOn, decide_eq_true_eq]
  exact_mod_cast Iff.rfl

/-- The ideal value is the amplitude times the sum of `SINFN` over the phase indices of the mode's tones. -/
theorem value_eq_sum {c : Config} (hfs : 0 < c.fs) (hring : 0 < c.ringPeriodS) (hbusy : 0 < c.busyPeriodS)
    (hden : 0 < c.busyOnDen) (mode : Mode) (lo hi ampl : Int) (n : Nat) :
    Ideal.value c mode lo hi ampl n = ampl * ((phases c mode lo hi n).map (sineValue c)).sum := by
  cases mode with
  | idle => simp [Ideal.value, phases, tones]
  | digitActive | dialTone => simp [Ideal.value, phases, tones, tone_eq_sineValue hfs]
  | ringTone =>
    simp only [Ideal.value, phases, tones, ← ringOn_iff hfs hring]
    split <;> simp [tone_eq_sineValue hfs]
  | busyTone =>
    simp only [Ideal.value, phases, tones, ← busyOn_iff hfs hbusy hden]
    split <;> simp [tone_eq_sineValue hfs]

/-- The saturation of R10 is the one of the quantiser. -/
theorem quantise_eq_sat16 (r : Rounding) (y : ℝ) : Ideal.quantise r y = sat16 (Ideal.round r y) :=
  (sat16_eq _).symm

/-- Settles O44: the sample before saturation is the rounding of the amplitude times the sum, which is the ideal value. -/
theorem sampleIsTheQuantisedIdealValue : Obligations.SampleIsTheQuantisedIdealValue := by
  refine ⟨fun c mode lo hi ampl n hfs hring hbusy hden => ?_, rfl, rfl⟩
  rw [quantise_eq_sat16, value_eq_sum hfs hring hbusy hden, synth,
    rounded_eq_idealRound hfs (phases_lt hfs mode lo hi n)]

/-- Settles O46: this hardware's parameters are among those of O44. -/
theorem referenceTonesAreExact : Obligations.ReferenceTonesAreExact := by
  intro mode lo hi a n _
  obtain ⟨hquantised, -, -⟩ := sampleIsTheQuantisedIdealValue
  exact_mod_cast hquantised Config.hw mode lo hi a.toNat n (by decide) (by decide) (by decide) (by decide)

/-! The sign of a sample (R91 (f)) and of its amplitude (R86) -/

theorem sat16_nonneg {z : Int} (h : 0 ≤ z) : 0 ≤ sat16 z := by
  rw [sat16_eq]
  omega

theorem sat16_nonpos {z : Int} (h : z ≤ 0) : sat16 z ≤ 0 := by
  rw [sat16_eq]
  omega

theorem idealRound_nonneg (r : Rounding) {y : ℝ} (h : 0 ≤ y) : 0 ≤ Ideal.round r y := by
  simpa using idealRound_mono r h

theorem idealRound_nonpos (r : Rounding) {y : ℝ} (h : y ≤ 0) : Ideal.round r y ≤ 0 := by
  simpa using idealRound_mono r h

theorem roundQuot_towardZero_neg (a d : Int) : roundQuot .towardZero (-a) d = -roundQuot .towardZero a d :=
  Int.neg_tdiv ..

/-- The enclosure at the negated amplitude is the mirrored enclosure. -/
theorem roundBounds_neg (w fs : Nat) (ps : List Nat) (ampl : Int) :
    roundBounds .towardZero w fs ps (-ampl) =
      (-(roundBounds .towardZero w fs ps ampl).2, -(roundBounds .towardZero w fs ps ampl).1) := by
  simp only [roundBounds, Int.natAbs_neg, ← roundQuot_towardZero_neg]
  congr 2 <;> ring

theorem separationBits_neg (fs : Nat) (ps : List Nat) (ampl : Int) :
    separationBits fs ps (-ampl) = separationBits fs ps ampl := by
  simp [separationBits]

/-- Two quotients of the same size, of dividends closer than the divisor, are not opposite unless 0. -/
theorem tdiv_eq_of_natAbs_eq {x y d : Int} (hxy : x ≤ y) (hclose : y - x < d)
    (habs : (x.tdiv d).natAbs = (y.tdiv d).natAbs) : x.tdiv d = y.tdiv d := by
  have hd : 0 ≤ d := by omega
  have hnonneg : ∀ z : Int, 0 ≤ z → 0 ≤ z.tdiv d := fun z hz => Int.tdiv_nonneg hz hd
  have hneg : ∀ z : Int, (-z).tdiv d = -z.tdiv d := fun z => Int.neg_tdiv ..
  rcases le_or_gt 0 x with hx | hx
  · have := hnonneg x hx
    have := hnonneg y (hx.trans hxy)
    omega
  · rcases le_or_gt y 0 with hy | hy
    · have := hnonneg (-x) (by omega)
      have := hnonneg (-y) (by omega)
      rw [hneg] at *
      omega
    · have hxzero := Int.tdiv_eq_zero_of_lt (a := -x) (b := d) (by omega) (by omega)
      rw [hneg] at hxzero
      rw [Int.tdiv_eq_zero_of_lt hy.le (by omega)]
      omega

/-- From the separating precision on the two ends do not round to opposite numbers other than 0. -/
theorem roundBounds_eq_of_natAbs_eq {w fs : Nat} {ps : List Nat} {ampl : Int} (hw : 64 ≤ w)
    (hsep : separationBits fs ps ampl ≤ w)
    (habs : (roundBounds .towardZero w fs ps ampl).1.natAbs = (roundBounds .towardZero w fs ps ampl).2.natAbs) :
    (roundBounds .towardZero w fs ps ampl).1 = (roundBounds .towardZero w fs ps ampl).2 := by
  have herr : sineError w * ps.length * ampl.natAbs = ((ps.length * ampl.natAbs * (3 * w + 32) : Nat) : Int) := by
    rw [sineError]
    push_cast
    ring
  have hnonneg : 0 ≤ sineError w * ps.length * ampl.natAbs := by
    rw [herr]
    exact Int.natCast_nonneg _
  have hwidth : 4 * (sineError w * ps.length * ampl.natAbs) < 2 ^ w := by
    rw [herr]
    exact_mod_cast (by simpa only [mul_assoc] using width_lt hw hsep)
  exact tdiv_eq_of_natAbs_eq (by linarith) (by linarith) habs

/-- At the last precision the jump of the mirrored enclosure is the mirrored jump. -/
theorem atJump_neg {ends : Int × Int} (h : ends.1.natAbs = ends.2.natAbs → ends.1 = ends.2) :
    atJump .towardZero (-ends.2, -ends.1) = -atJump .towardZero ends := by
  simp only [atJump, Int.natAbs_neg]
  split <;> split <;> omega

theorem settle_neg {fs : Nat} {ps : List Nat} {ampl : Int} {doublings w : Nat} (hw : 64 ≤ w)
    (hsep : separationBits fs ps ampl ≤ w * 2 ^ doublings) :
    settle .towardZero fs ps (-ampl) doublings w = -settle .towardZero fs ps ampl doublings w := by
  induction doublings generalizing w with
  | zero =>
    rw [pow_zero, mul_one] at hsep
    rw [settle, settle, roundBounds_neg, atJump_neg (roundBounds_eq_of_natAbs_eq hw hsep)]
  | succ d ih =>
    rw [settle, settle, roundBounds_neg, ih (by omega) (by rwa [mul_comm 2, mul_assoc, ← pow_succ'])]
    simp only [neg_inj, eq_comm (a := (roundBounds .towardZero w fs ps ampl).2)]
    split
    · rename_i hends
      exact congrArg Neg.neg hends.symm
    · rfl

/-- A negative amplitude inverts the sample before saturation (R86). -/
theorem roundedReal_neg (fs : Nat) (ps : List Nat) (ampl : Int) :
    roundedReal .towardZero fs ps (-ampl) = -roundedReal .towardZero fs ps ampl := by
  cases hq : quarters fs ps with
  | some a => rw [roundedReal_of_quarters _ hq, roundedReal_of_quarters _ hq, neg_mul, roundQuot_towardZero_neg]
  | none =>
    simp only [roundedReal, hq, separationBits_neg, Int.natAbs_neg]
    exact settle_neg (by omega) (separationBits_le_last fs ps ampl (by omega))

/-- Settles O55: the rounding and the saturation keep the sign of the ideal value, and the enclosures at opposite amplitudes
mirror each other. -/
theorem sampleNeverCrossesZero : Obligations.SampleNeverCrossesZero := by
  obtain ⟨hquantised, -, -⟩ := sampleIsTheQuantisedIdealValue
  refine ⟨fun c mode lo hi ampl n hfs hring hbusy hden => ?_, roundedReal_neg⟩
  rw [hquantised c mode lo hi ampl n hfs hring hbusy hden, quantise_eq_sat16]
  exact ⟨fun h => sat16_nonneg (idealRound_nonneg c.round h), fun h => sat16_nonpos (idealRound_nonpos c.round h)⟩

end Sys2Proof.Machine
end

section
/-! SUPPORT. The periods of `SYNTH` (R90), where it is 0 (R91 (a) to (d)), and its bounds (R91 (e)). -/

namespace Sys2Proof.Machine

/-! Periods: a shift of the index that leaves the phase indices leaves the sample. -/

theorem synth_congr {c : Config} {mode : Mode} {lo hi : Int} {m n : Nat} (ampl : Int)
    (h : phases c mode lo hi m = phases c mode lo hi n) : synth c mode lo hi ampl m = synth c mode lo hi ampl n := by
  rw [synth, synth, h]

theorem phases_congr {c : Config} {mode : Mode} {lo hi : Int} {m n : Nat} (htones : tones c mode lo hi m = tones c mode lo hi n)
    (hphase : ∀ f, phaseIndex c.fs f m = phaseIndex c.fs f n) : phases c mode lo hi m = phases c mode lo hi n := by
  rw [phases, phases, htones, funext hphase]

theorem ringOn_add_mul (c : Config) (n k : Nat) : ringOn c (n + k * (c.ringPeriodS * c.fs)) = ringOn c n := by
  rw [ringOn, ringOn, Nat.add_mul_mod_self_right]

theorem busyOn_add_mul (c : Config) (n k : Nat) : busyOn c (n + k * (c.busyPeriodS * c.fs)) = busyOn c n := by
  rw [busyOn, busyOn, Nat.add_mul_mod_self_right]

/-- Whole seconds that are whole periods of the mode's cadence. -/
theorem synth_add_seconds (c : Config) (mode : Mode) (lo hi ampl : Int) (n seconds : Nat)
    (hring : mode = .ringTone → c.ringPeriodS ∣ seconds) (hbusy : mode = .busyTone → c.busyPeriodS ∣ seconds) :
    synth c mode lo hi ampl (n + seconds * c.fs) = synth c mode lo hi ampl n := by
  refine synth_congr ampl (phases_congr ?_ fun f => phaseIndex_add_mul c.fs f n seconds)
  cases mode with
  | idle | digitActive | dialTone => rfl
  | ringTone =>
    obtain ⟨k, rfl⟩ := hring rfl
    rw [tones, tones, mul_comm c.ringPeriodS, mul_assoc, ringOn_add_mul]
  | busyTone =>
    obtain ⟨k, rfl⟩ := hbusy rfl
    rw [tones, tones, mul_comm c.busyPeriodS, mul_assoc, busyOn_add_mul]

/-- Indices in which a tone completes whole turns do not move its phase. -/
theorem phaseIndex_add_of_turns {fs k : Nat} {f turns : Int} (h : f * k = turns * fs) (n : Nat) :
    phaseIndex fs f (n + k) = phaseIndex fs f n := by
  rw [phaseIndex, Nat.cast_add, mul_add, h, Int.add_mul_emod_self_right]
  rfl

/-- Settles O47: whole seconds that are whole periods of the cadence, and for the dial tone whole turns of its own. -/
theorem synthIsPeriodic : Obligations.SynthIsPeriodic := by
  refine ⟨fun c mode lo hi ampl n _ => ?_, fun c mode lo hi ampl n _ hring hbusy => ?_, fun mode lo hi ampl n => ?_,
    fun mode lo hi ampl n hring => ?_, fun lo hi ampl n => ?_⟩
  · exact synth_add_seconds c mode lo hi ampl n _ (fun _ => Dvd.intro _ rfl) (fun _ => Dvd.intro_left _ rfl)
  · have h := synth_add_seconds c mode lo hi ampl n 1 (absurd · hring) (absurd · hbusy)
    rwa [one_mul] at h
  · have h := synth_add_seconds Config.hw mode lo hi ampl n 5 (fun _ => dvd_refl 5) (fun _ => one_dvd 5)
    rwa [show 5 * Config.hw.fs = 240000 from rfl] at h
  · have h := synth_add_seconds Config.hw mode lo hi ampl n 1 (absurd · hring) (fun _ => dvd_refl 1)
    rwa [show 1 * Config.hw.fs = 48000 from rfl] at h
  · have hturns : Config.hw.refFreq * (1920 : Nat) = 17 * Config.hw.fs := by decide
    exact synth_congr ampl (congrArg (fun p => [p]) (phaseIndex_add_of_turns hturns n))

/-! Silence -/

/-- With no tone the sample is 0, whatever `SINFN` and `ROUND`. -/
theorem synth_of_silent {c : Config} {mode : Mode} {lo hi : Int} {n : Nat} (ampl : Int) (h : tones c mode lo hi n = []) :
    synth c mode lo hi ampl n = 0 := by
  have hrounded : rounded c [] ampl = 0 := by
    cases hs : c.sinFn with
    | real => rw [rounded_of_real hs, roundedReal_nil]
    | table den nums => rw [rounded_of_table hs, List.map_nil, List.sum_nil, mul_zero, roundQuot_zero _ (by omega)]
  rw [synth, phases, h, List.map_nil, hrounded]
  rfl

theorem roundBounds_zero_ampl (r : Rounding) (w fs : Nat) (ps : List Nat) : roundBounds r w fs ps 0 = (0, 0) := by
  have hunit : (0 : Int) ≤ 2 ^ w := by positivity
  simp [roundBounds, roundQuot_zero r hunit]

theorem roundedReal_zero_ampl (r : Rounding) (fs : Nat) (ps : List Nat) : roundedReal r fs ps 0 = 0 := by
  cases hq : quarters fs ps with
  | some a => rw [roundedReal_of_quarters 0 hq, zero_mul, roundQuot_zero r (by norm_num)]
  | none =>
    -- the ends of the first enclosure are both 0
    simp [roundedReal, hq, settle, roundBounds_zero_ampl]

theorem synth_zero_ampl (c : Config) (mode : Mode) (lo hi : Int) (n : Nat) : synth c mode lo hi 0 n = 0 := by
  have hrounded : rounded c (phases c mode lo hi n) 0 = 0 := by
    cases hs : c.sinFn with
    | real => rw [rounded_of_real hs, roundedReal_zero_ampl]
    | table den nums => rw [rounded_of_table hs, zero_mul, roundQuot_zero _ (by omega)]
  rw [synth, hrounded]
  rfl

/-- At a whole second every phase is 0. -/
theorem sineSum_whole_seconds (c : Config) (mode : Mode) (lo hi : Int) (k : Nat) :
    Ideal.sineSum c.fs (phases c mode lo hi (k * c.fs)) = 0 := by
  have hphase : ∀ f, phaseSine c.fs (phaseIndex c.fs f (k * c.fs)) = 0 := fun f => by
    have h := phaseIndex_add_mul c.fs f 0 k
    rw [Nat.zero_add] at h
    rw [h]
    simp [phaseIndex, phaseSine]
  rw [phases]
  induction tones c mode lo hi (k * c.fs) with
  | nil => rfl
  | cons f fs ih => rw [List.map_cons, sineSum_cons, hphase, ih, add_zero]

theorem synth_of_real {c : Config} (hfs : 0 < c.fs) (hs : c.sinFn = .real) (mode : Mode) (lo hi ampl : Int) (n : Nat) :
    synth c mode lo hi ampl n =
      sat16 (Ideal.round c.round (ampl * Ideal.sineSum c.fs (phases c mode lo hi n))) := by
  rw [synth, rounded_of_real hs, roundedReal_eq_idealRound _ _ hfs (phases_lt hfs mode lo hi n)]

/-- Settles O48: no tone sounds, the amplitude is 0, or every sine is 0. -/
theorem silentSamples : Obligations.SilentSamples := by
  refine ⟨fun c lo hi ampl n => synth_of_silent ampl rfl, synth_zero_ampl, fun c mode lo hi ampl k hfs hs => ?_,
    fun lo hi ampl n hn => synth_of_silent ampl ?_, fun lo hi ampl n hn => synth_of_silent ampl ?_⟩
  · rw [synth_of_real hfs hs, sineSum_whole_seconds, mul_zero, idealRound_zero]
    rfl
  · have hoff : ringOn Config.hw n = false := decide_eq_false (by simp only [Config.hw]; omega)
    rw [tones, hoff]
    rfl
  · have hoff : busyOn Config.hw n = false := decide_eq_false (by simp only [Config.hw]; omega)
    rw [tones, hoff]
    rfl

/-! Bounds -/

theorem abs_sat16_le (z : Int) : |sat16 z| ≤ |z| := by
  rw [sat16_eq, abs_le]
  rcases abs_cases z with ⟨h, hz⟩ | ⟨h, hz⟩ <;> omega

theorem abs_synth_le_length {c : Config} (hfs : 0 < c.fs) (hs : c.sinFn = .real) (mode : Mode) (lo hi ampl : Int) (n : Nat) :
    |synth c mode lo hi ampl n| ≤ (tones c mode lo hi n).length * |ampl| := by
  rw [synth_of_real hfs hs]
  refine (abs_sat16_le _).trans (abs_idealRound_le c.round ?_)
  push_cast
  simpa [phases] using abs_idealSum_le c.fs (phases c mode lo hi n) ampl

theorem tones_length_le_one {c : Config} {mode : Mode} (hmode : mode ≠ .digitActive) (lo hi : Int) (n : Nat) :
    (tones c mode lo hi n).length ≤ 1 := by
  cases mode with
  | digitActive => exact absurd rfl hmode
  | idle | dialTone => simp [tones]
  | ringTone | busyTone =>
    rw [tones]
    split <;> simp

/-- Settles O49: each tone adds at most the amplitude, and the saturation lessens a magnitude. -/
theorem sampleBounds : Obligations.SampleBounds := by
  refine ⟨fun c mode lo hi ampl n hfs hs hmode => ?_, fun c lo hi ampl n hfs hs => ?_,
    fun c mode lo hi ampl n => sat16_bounds _⟩
  · refine (abs_synth_le_length hfs hs mode lo hi ampl n).trans (mul_le_of_le_one_left (abs_nonneg _) ?_)
    exact_mod_cast tones_length_le_one hmode lo hi n
  · exact abs_synth_le_length hfs hs .digitActive lo hi ampl n

end Sys2Proof.Machine
end

section
/-! SUPPORT. The delivered samples: within -20000 .. 20000 in every run (R85), and independent of what RENDER does
not read (R76). -/

namespace Sys2Proof.Machine

open Statements (pcmUnsaturated)

/-- A sample within the bounds of R85, as a word. -/
abbrev unsaturated (w : Sample) : Prop := -20000 ≤ w.toInt ∧ w.toInt ≤ 20000

theorem abs_synth_hw_le (mode : Mode) (lo hi ampl : Int) (n : Nat) :
    |synth Config.hw mode lo hi ampl n| ≤ 2 * |ampl| := by
  obtain ⟨hother, hdigit, -⟩ := sampleBounds
  by_cases hmode : mode = .digitActive
  · subst hmode
    exact hdigit Config.hw lo hi ampl n (by decide) rfl
  · have := hother Config.hw mode lo hi ampl n (by decide) rfl hmode
    have := abs_nonneg ampl
    omega

/-- A sample at an amplitude of at most 10000 does not saturate, and its word reads as its value. -/
theorem sampleAt_unsaturated {x : Snapshot} (hx : x.ampl.toNat ≤ 10000) (idx : BitVec 64) :
    unsaturated (sampleAt Config.hw x idx) := by
  have hsynth := abs_synth_hw_le x.mode x.freq.lo.toNat x.freq.hi.toNat x.ampl.toNat idx.toNat
  rw [Nat.abs_cast] at hsynth
  rw [unsaturated, sampleAt, BitVec.toInt_ofInt]
  generalize synth Config.hw x.mode x.freq.lo.toNat x.freq.hi.toNat x.ampl.toNat idx.toNat = z at hsynth
  obtain ⟨hlo, hhi⟩ := abs_le.1 hsynth
  rw [Int.bmod_eq_of_le (by omega) (by omega)]
  omega

theorem blockSamples_unsaturated {x : Snapshot} (hx : x.ampl.toNat ≤ 10000) (base : BitVec 64) (n : Nat) :
    ∀ w ∈ blockSamples Config.hw x base n, unsaturated w := by
  intro w hw
  obtain ⟨i, -, rfl⟩ := List.mem_map.1 hw
  exact sampleAt_unsaturated hx _

theorem pcmUnsaturated_append {s t : State} {ws : List Sample} (hs : pcmUnsaturated s) (hws : ∀ w ∈ ws, unsaturated w)
    (h : t.pcm = s.pcm ++ ws) : pcmUnsaturated t := by
  intro w hw
  rw [h] at hw
  exact (List.mem_append.1 hw).elim (hs w) (hws w)

/-- The words an effect adds are samples at the amplitude of `SNAP` or, for a whole block, at the one it copies. -/
theorem Effect.pcmUnsaturated {s t : State} {e : Option Input} (h : Effect s e t) (hsignal : SignalInv s) (hsnap : SnapInv s)
    (hs : pcmUnsaturated s) : pcmUnsaturated t := by
  cases h with
  | reset => exact nofun
  | render n hb => exact pcmUnsaturated_append hs (blockSamples_unsaturated hsignal.ampl_bound _ _) rfl
  | sample | lastSample =>
    exact pcmUnsaturated_append hs (List.forall_mem_singleton.2 (sampleAt_unsaturated hsnap.ampl_bound _)) rfl
  | held | fault | press | mode | setamp | bindkey | blockStart => exact hs

/-- Settles O54: a step is an effect, and an effect adds only samples whose amplitude the invariants bound. -/
theorem unsaturatedOutputIsKept : Obligations.UnsaturatedOutputIsKept :=
  fun _ _ hsignal hsnap hs h =>
    (stepWith_effect h).pcmUnsaturated (hsignal.congr rfl rfl rfl rfl) (hsnap.congr rfl) hs

/-- Settles O41, by induction on the run: the states of a run meet the invariants, under which every step keeps the bound. -/
theorem noDeliveredSampleSaturates : Obligations.NoDeliveredSampleSaturates := by
  intro s h
  induction h with
  | start => exact nofun
  | step hrun hstep ih =>
    obtain ⟨hsignal, hsnap, -, -, -⟩ := hrun.stateInv
    exact (stepWith_effect hstep).pcmUnsaturated (hsignal.congr rfl rfl rfl rfl) (hsnap.congr rfl) ih

/-- Settles O15: a RENDER that completes is a whole block, which copies what it does not read. -/
theorem samplesDoNotDependOnTheOtherRegisters : Obligations.SamplesDoNotDependOnTheOtherRegisters := by
  intro n s t l m f h
  obtain hb | ⟨b, hb⟩ := Option.eq_none_or_eq_some s.block
  · cases (execRender_of_none n hb).symm.trans h
    exact execRender_of_none (s := { s with lastsym := l, keymap := m, fault := f }) n hb
  · cases (execRender_of_some n hb).symm.trans h

end Sys2Proof.Machine
end

section
/-! SUPPORT. R28 for the control port: a control word completes, does the same whatever the audio side holds, and leaves the audio
side as it is. -/

namespace Sys2Proof.Machine

open Statements (afterRaise)

/-- The fields that no control word of this hardware reads or writes: those of `Statements.sameAudioSide`. -/
structure AudioSide where
  sclk : BitVec 64
  snap : Snapshot
  block : Option Block
  outstanding : Outstanding
  pcm : List Sample
  presented : Option Input
  time : Nat

/-- The audio side of `s`. -/
def State.audioSide (s : State) : AudioSide where
  sclk := s.sclk
  snap := s.snap
  block := s.block
  outstanding := s.outstanding
  pcm := s.pcm
  presented := s.presented
  time := s.time

/-- `s` with the audio side `a` in place of its own. -/
def State.withAudioSide (s : State) (a : AudioSide) : State where
  mode := s.mode
  freq := s.freq
  ampl := s.ampl
  sclk := a.sclk
  lastsym := s.lastsym
  fault := s.fault
  snap := a.snap
  keymap := s.keymap
  block := a.block
  outstanding := a.outstanding
  pcm := a.pcm
  presented := a.presented
  time := a.time

/-- From `s` the operation `f` completes, and it writes the same whatever stands on the audio side. -/
def IgnoresAudioSide (f : State → Host.Outcome State Fault Refusal) (s : State) : Prop :=
  ∃ t : State, ∀ a, f (s.withAudioSide a) = .next (t.withAudioSide a)

theorem withAudioSide_self (s : State) : s.withAudioSide s.audioSide = s := rfl

theorem exec_pressd_ignoresAudioSide (sym : Symbol) (s : State) : IgnoresAudioSide (exec (.pressd sym)) s := by
  cases hl : lookup Config.hw sym with
  | some pair => exact ⟨((s.setFreq pair).setMode .digitActive).setLastsym (some sym), fun _ => exec_pressd_of_some hl⟩
  | none => exact ⟨afterRaise s .unknownSymbol, fun _ => exec_pressd_of_none hl⟩

theorem exec_keydn_ignoresAudioSide (key : KeyCode) (s : State) : IgnoresAudioSide (exec (.keydn key)) s := by
  cases hk : s.keymap.read key.toNat with
  | none => exact ⟨s, fun _ => exec_keydn_of_none hk⟩
  | some sym =>
    obtain ⟨t, ht⟩ := exec_pressd_ignoresAudioSide sym s
    exact ⟨t, fun a => (exec_keydn_of_some (s := s.withAudioSide a) hk).trans (ht a)⟩

theorem exec_keyup_ignoresAudioSide (key : KeyCode) (s : State) : IgnoresAudioSide (exec (.keyup key)) s := by
  obtain ⟨hmatch, hother⟩ := keyupClearsOnlyOnAMatch
  by_cases h : ∃ sym, s.keymap.read key.toNat = some sym ∧ s.lastsym = some sym
  · obtain ⟨sym, hk, hlast⟩ := h
    exact ⟨s.setMode .idle, fun a => hmatch key sym (s.withAudioSide a) hk hlast⟩
  · exact ⟨s, fun a => hother key (s.withAudioSide a) fun sym hk hlast => h ⟨sym, hk, hlast⟩⟩

/-- A control operation completes, and writes the same whatever the audio side holds. -/
theorem exec_control_ignoresAudioSide {i : Instr} (hport : i.port = .control) (s : State) : IgnoresAudioSide (exec i) s := by
  cases i with
  | pressd sym => exact exec_pressd_ignoresAudioSide sym s
  | keydn key => exact exec_keydn_ignoresAudioSide key s
  | keyup key => exact exec_keyup_ignoresAudioSide key s
  | reld _ | relmDial | relmRing | relmBusy => exact ⟨s.setMode .idle, fun _ => rfl⟩
  | pressmDial => exact ⟨s.setMode .dialTone, fun _ => rfl⟩
  | pressmRing => exact ⟨s.setMode .ringTone, fun _ => rfl⟩
  | pressmBusy => exact ⟨s.setMode .busyTone, fun _ => rfl⟩
  | setamp v => exact ⟨s.setAmpl (amplOperand Config.hw v), fun _ => rfl⟩
  | bindkey key sym => exact ⟨s.setKeymap (s.keymap.bind key.toNat sym), fun _ => rfl⟩
  | render _ => cases hport

/-- So does every word on the control port, legal or not. -/
theorem execWord_control_ignoresAudioSide (w : Word) (s : State) : IgnoresAudioSide (execWord .control w) s := by
  cases hd : decode .control w with
  | ok i =>
    obtain ⟨-, -, hport⟩ := decode_isWordOf hd
    obtain ⟨t, ht⟩ := exec_control_ignoresAudioSide hport s
    exact ⟨t, fun a => (execWord_ok _ hd).trans (ht a)⟩
  | error r => exact ⟨raise .illegalCommand s, fun _ => execWord_error _ hd⟩

/-- A control word leaves the audio side as it is. -/
theorem execWord_control_audioSide (w : Word) (s : State) :
    ∃ t, execWord .control w s = .next t ∧ t.audioSide = s.audioSide := by
  obtain ⟨t, ht⟩ := execWord_control_ignoresAudioSide w s
  exact ⟨t.withAudioSide s.audioSide, ht s.audioSide, rfl⟩

end Sys2Proof.Machine
end

section
/-! SUPPORT. The samples of a block as events: they read and write the audio side only, so they commute with control words
(R101), and together they are the samples of the whole block (R97). -/

namespace Sys2Proof.Machine

/-- A sample reads and writes the audio side only. -/
theorem produceSample_withAudioSide (c : Config) (s t : State) :
    produceSample c (t.withAudioSide s.audioSide) = t.withAudioSide (produceSample c s).audioSide := by
  have hblock : (t.withAudioSide s.audioSide).block = s.block := rfl
  cases hb : s.block with
  | none => rw [produceSample_of_none c (hblock.trans hb), produceSample_of_none c hb]
  | some b =>
    rw [produceSample_of_some c (hblock.trans hb), produceSample_of_some c hb]
    by_cases hlt : b.produced + 1 < b.frames
    · rw [blockSample_of_lt c _ hlt, blockSample_of_lt c _ hlt]
      rfl
    · rw [blockSample_of_not_lt c _ hlt, blockSample_of_not_lt c _ hlt]
      rfl

theorem iterate_produceSample_withAudioSide (c : Config) (k : Nat) (s t : State) :
    (produceSample c)^[k] (t.withAudioSide s.audioSide) = t.withAudioSide ((produceSample c)^[k] s).audioSide := by
  induction k generalizing s with
  | zero => rfl
  | succ k ih => rw [Function.iterate_succ_apply, produceSample_withAudioSide, ih, Function.iterate_succ_apply]

/-- R101: a control word executed before samples is as good as after them. -/
theorem execWord_control_iterate_produceSample {w : Word} {s t : State} (h : execWord .control w s = .next t)
    (c : Config) (k : Nat) :
    execWord .control w ((produceSample c)^[k] s) = .next ((produceSample c)^[k] t) := by
  obtain ⟨u, hu⟩ := execWord_control_ignoresAudioSide w s
  cases (hu s.audioSide).symm.trans h
  have hself := iterate_produceSample_withAudioSide c k s s
  rw [withAudioSide_self] at hself
  calc
    execWord .control w ((produceSample c)^[k] s)
      = execWord .control w (s.withAudioSide ((produceSample c)^[k] s).audioSide) := congrArg _ hself
    _ = .next (u.withAudioSide ((produceSample c)^[k] s).audioSide) := hu _
    _ = .next ((produceSample c)^[k] (u.withAudioSide s.audioSide)) := by rw [iterate_produceSample_withAudioSide]

theorem sampleIndex_toNat (base : BitVec 64) (i : Nat) : (sampleIndex base i).toNat = (base.toNat + i) % 2 ^ 64 := by
  simp [sampleIndex]

theorem blockSamples_getElem? (c : Config) (x : Snapshot) (base : BitVec 64) {i n : Nat} (hi : i < n) :
    (blockSamples c x base n)[i]? = some (sampleAt c x (sampleIndex base i)) := by
  simp [blockSamples, hi]

/-- A non-empty block from its front: the first sample, and the samples of the indices behind it. -/
theorem blockSamples_succ_front (c : Config) (x : Snapshot) (base : BitVec 64) (n : Nat) :
    blockSamples c x base (n + 1) = sampleAt c x base :: blockSamples c x (sampleIndex base 1) n := by
  rw [Nat.add_comm, blockSamples_add, blockSamples_one, List.singleton_append]

theorem iterate_produceSample_within (c : Config) (k : Nat) (before : List Sample) (p : Option Input) (n : Nat) (s : State) :
    (produceSample c)^[k] (s.within before p n) = ((produceSample c)^[k] s).within before p n :=
  (Function.Semiconj.iterate_right (fun t => (produceSample_within c before p n t).symm) k s).symm

/-- The samples a block has left, all of them: they are delivered in index order, and the last ends the block and writes
`SCLK` (R97). -/
theorem iterate_produceSample_of_some (c : Config) {s : State} {b : Block} (hb : s.block = some b) {k : Nat}
    (hk : b.produced + (k + 1) = b.frames) :
    (produceSample c)^[k + 1] s =
      ((s.setPcm (s.pcm ++ blockSamples c s.snap (sampleIndex b.base b.produced) (k + 1))).setBlock none).setSclk
        (sampleIndex b.base b.frames) := by
  induction k generalizing s b with
  | zero =>
    rw [Function.iterate_succ_apply, produceSample_of_some c hb, blockSample_of_not_lt c s (by omega), blockSamples_one]
    rfl
  | succ k ih =>
    rw [Function.iterate_succ_apply, produceSample_of_some c hb, blockSample_of_lt c s (by omega),
      ih (State.setBlock_block _ _) (by simp only; omega), blockSamples_succ_front c _ _ (k + 1), sampleIndex_add]
    simp [State.setPcm, State.setBlock, State.setSclk]

/-- A block start and all its samples are the whole block (R101). -/
theorem iterate_produceSample_beginBlock (n : Nat) {s : State} (hb : s.block = none) :
    (produceSample Config.hw)^[n] (beginBlock Config.hw n s) = renderBlock Config.hw n s := by
  rw [beginBlock_hw]
  cases n with
  | zero => simp [renderBlock, State.setSnap, State.setPcm, State.setBlock, State.setSclk, hb]
  | succ n =>
    rw [if_neg n.succ_ne_zero, iterate_produceSample_of_some Config.hw (State.setBlock_block _ _) (Nat.zero_add _)]
    simp [renderBlock, State.setSnap, State.setPcm, State.setBlock, State.setSclk, hb]

end Sys2Proof.Machine
end

section
/-! SUPPORT. The statements of 42_render.md on whole blocks: the block as one step, as a sequence of blocks and as events. -/

namespace Sys2Proof.Machine

open Statements (renderWord insideBlock deliversSample)

/-- Settles O12: the request looks at the block in progress first. -/
theorem renderDuringABlockStops : Obligations.RenderDuringABlockStops :=
  fun n _ _ hb => execRender_of_some n hb

/-- Word `i` of a whole block is the sample of the time index `SCLK + i` (R97). -/
theorem renderBlock_deliversSample (s : State) {i n : Nat} (hi : i < n) :
    deliversSample s (renderBlock Config.hw n s) (s.pcm.length + i) ((s.sclk.toNat + i) % 2 ^ 64) := by
  rw [deliversSample, renderBlock_pcm, List.getElem?_append_right (Nat.le_add_right _ _), Nat.add_sub_cancel_left,
    blockSamples_getElem? _ _ _ hi, sampleAt, sampleIndex_toNat]
  rfl

/-- Settles O11: the state that RENDER leaves is `renderBlock`, whose fields are read off. -/
theorem renderDeliversTheBlock : Obligations.RenderDeliversTheBlock := by
  intro n s hb
  refine ⟨renderBlock Config.hw n.toNat s, execRender_of_none n hb, rfl, sampleIndex_toNat s.sclk n.toNat, ?_, ?_, ?_, rfl,
    hb, rfl, rfl, rfl, rfl, rfl, rfl, rfl, rfl⟩
  · rw [renderBlock_pcm, List.length_append, blockSamples_length]
  · exact fun j hj => List.getElem?_append_left hj
  · exact fun i hi => renderBlock_deliversSample s hi

/-- Two blocks, the second from where the first left `SCLK`, are one block of both their frames (R99). -/
theorem renderBlock_renderBlock (c : Config) (m n : Nat) (s : State) :
    renderBlock c n (renderBlock c m s) = renderBlock c (m + n) s := by
  rw [renderBlock, renderBlock_pcm, renderBlock_signal, renderBlock_sclk, sampleIndex_add, List.append_assoc,
    ← blockSamples_add]
  rfl

theorem execInput_renderWord_of_none (n : BitVec 20) {s : State} (hb : s.block = none) :
    execInput (renderWord n) s = .next (renderBlock Config.hw n.toNat s) :=
  (execWord_ok s (decode_encode_render n)).trans (execRender_of_none n hb)

/-- After a block, any blocks that follow lengthen it by their frames. -/
theorem execInputs_renderWords (ns : List (BitVec 20)) (m : Nat) {s : State} (hb : s.block = none) :
    execInputs (ns.map renderWord) (renderBlock Config.hw m s) =
      .next (renderBlock Config.hw (m + (ns.map BitVec.toNat).sum) s) := by
  induction ns generalizing m with
  | nil => rfl
  | cons n ns ih =>
    have hnext := execInput_renderWord_of_none (s := renderBlock Config.hw m s) n hb
    rw [List.map_cons, execInputs_cons_next _ hnext, renderBlock_renderBlock, ih, List.map_cons, List.sum_cons,
      Nat.add_assoc]

/-- Settles O13: the first block is lengthened by each of the others, up to the frames of all. -/
theorem splittingABlockChangesNothing : Obligations.SplittingABlockChangesNothing := by
  intro ns s hb hne hsum
  cases ns with
  | nil => exact absurd rfl hne
  | cons n ns =>
    have hwhole := execRender_of_none (BitVec.ofNat 20 ((n :: ns).map BitVec.toNat).sum) hb
    rw [BitVec.toNat_ofNat, Nat.mod_eq_of_lt hsum] at hwhole
    rw [List.map_cons, execInputs_cons_next _ (execInput_renderWord_of_none n hb), execInputs_renderWords ns n.toNat hb]
    exact hwhole.symm

/-- Samples with control words between them are all the samples and then the words (R101), in any state. -/
theorem execInputs_insideBlock {es : List Input} (hes : ∀ e ∈ es, insideBlock e) (s : State) :
    execInputs es s =
      execInputs (es.filter fun e => e ≠ .sample) ((produceSample Config.hw)^[es.count .sample] s) := by
  induction es generalizing s with
  | nil => rfl
  | cons e es ih =>
    obtain ⟨he, hrest⟩ := List.forall_mem_cons.1 hes
    rcases he with rfl | ⟨w, rfl⟩
    · rw [execInputs_cons_next (e := .sample) es (sampleEvent_hw s), ih hrest, List.count_cons_self,
        Function.iterate_succ_apply]
      rfl
    · have hne : Input.word .control w ≠ .sample := nofun
      obtain ⟨t, ht, -⟩ := execWord_control_audioSide w s
      rw [execInputs_cons_next (e := .word .control w) es ht, ih hrest, List.count_cons_of_ne hne]
      exact (execInputs_cons_next (e := .word .control w) _
        (execWord_control_iterate_produceSample ht Config.hw _)).symm

/-- Settles O14: the words go behind the samples, and the samples with their block start are the whole block. -/
theorem blockEventsRefineTheWholeRender : Obligations.BlockEventsRefineTheWholeRender := by
  intro n es s hb hes hcount
  have hstart := execInputWith_blockStart_render Config.hw n hb
  rw [execInputs_cons_next es hstart, execInputs_insideBlock hes, hcount, iterate_produceSample_beginBlock _ hb,
    execInputs_cons_next _ (execInput_renderWord_of_none n hb)]

end Sys2Proof.Machine
end

section
/-! SUPPORT. A block in progress over the steps of a run: control words leave it as it is, and with no event to come it runs to its
last sample (R103). -/

namespace Sys2Proof.Machine

theorem runWith_succ_next {c : Config} {agents : Nat → Option Input} {s t : State} (k : Nat)
    (h : stepWith c agents s = .next t) : runWith c agents (k + 1) s = runWith c agents k t := by
  simp [runWith, h]

/-- While control words come, the steps leave the block in progress and what its samples read. -/
theorem runWith_controlWords (k : Nat) {agents : Nat → Option Input} {words : Nat} {s : State} (hp : s.presented = none)
    (hwords : ∀ i < words, ∃ w, agents (s.time + i) = some (.word .control w)) :
    ∃ t : State, runWith Config.hw agents (words + k) s = runWith Config.hw agents k t ∧
      t.audioSide = { s.audioSide with time := s.time + words } := by
  induction words generalizing s with
  | zero => exact ⟨s, by rw [Nat.zero_add], rfl⟩
  | succ words ih =>
    obtain ⟨w, hw⟩ := hwords 0 words.succ_pos
    obtain ⟨t, ht, hside⟩ := execWord_control_audioSide w (consumed s)
    have hstep : stepWith Config.hw agents s = .next t := (stepWith_some ((nextInput_stream hp).trans hw)).trans ht
    have htime : t.time = s.time + 1 := congrArg AudioSide.time hside
    obtain ⟨u, hu, huside⟩ := ih (s := t) (congrArg AudioSide.presented hside) fun i hi => by
      rw [htime, Nat.add_assoc, Nat.add_comm 1]
      exact hwords (i + 1) (Nat.succ_lt_succ hi)
    refine ⟨u, ?_, ?_⟩
    · rw [Nat.add_right_comm, runWith_succ_next _ hstep, hu]
    · rw [huside, hside, htime, Nat.add_assoc, Nat.add_comm 1]
      simp [State.audioSide, consumed, hp]

/-- With no event to come each step is a sample of the block in progress. -/
theorem runWith_silent (k : Nat) {agents : Nat → Option Input} {s : State} (hp : s.presented = none)
    (hsilent : ∀ i, agents (s.time + i) = none) :
    runWith Config.hw agents k s = .next (((produceSample Config.hw)^[k] s).within [] none (s.time + k)) := by
  induction k generalizing s with
  | zero =>
    rw [← hp]
    rfl
  | succ k ih =>
    have hconsumed : consumed s = s.within [] none (s.time + 1) := rfl
    have hstep : stepWith Config.hw agents s = .next ((produceSample Config.hw s).within [] none (s.time + 1)) := by
      rw [stepWith_none ((nextInput_stream hp).trans (hsilent 0)), runOn_hw, hconsumed, produceSample_within]
    rw [runWith_succ_next k hstep, ih rfl fun i => Nat.add_assoc s.time 1 i ▸ hsilent (1 + i), iterate_produceSample_within,
      Function.iterate_succ_apply, Nat.add_comm k, ← Nat.add_assoc]
    rfl

/-- Settles O52: the words leave the block, and with nothing more to come each step is one of its samples. -/
theorem blockRunsToItsLastSample : Obligations.BlockRunsToItsLastSample := by
  intro agents words s b hb hlt hp hwords hsilent
  obtain ⟨k, hk⟩ := Nat.exists_eq_add_of_lt hlt
  obtain ⟨t, hrun, hside⟩ := runWith_controlWords (b.frames - b.produced) hp hwords
  have hblock : t.block = some b := (congrArg AudioSide.block hside).trans hb
  have hpcm : t.pcm = s.pcm := congrArg AudioSide.pcm hside
  have htime : t.time = s.time + words := congrArg AudioSide.time hside
  have hquiet : ∀ i, agents (t.time + i) = none := fun i => by
    rw [htime, Nat.add_assoc]
    exact hsilent (words + i) (Nat.le_add_right words i)
  have hleft : b.frames - b.produced = k + 1 := by omega
  refine ⟨_, hrun.trans (runWith_silent _ ((congrArg AudioSide.presented hside).trans hp) hquiet), ?_⟩
  rw [hleft, iterate_produceSample_of_some Config.hw hblock (by omega)]
  exact ⟨rfl, rfl, by simp [hpcm]⟩

end Sys2Proof.Machine
end

section
/-! SUPPORT. The interfaces of R115 (R28): a control word leaves the audio side, no event of the audio side writes a control
register, and with no event and no block the hardware holds its state (R118). -/

namespace Sys2Proof.Machine

open Statements (sameControlSide)

/-- Settles O31: with no event a step only produces the next sample of a block in progress, and there is none. -/
theorem withNoEventTheStateIsHeld : Obligations.WithNoEventTheStateIsHeld := by
  intro agents s hnext hb
  rw [stepWith_none hnext, runOn_hw, produceSample_of_none Config.hw (s := consumed s) hb]
  rfl

/-- Settles O17: a control word completes, whatever stands on the audio side, and puts that back. -/
theorem controlPortLeavesTheAudioSide : Obligations.ControlPortLeavesTheAudioSide := by
  intro w s
  obtain ⟨t, ht⟩ := execWord_control_ignoresAudioSide w s
  exact ⟨t.withAudioSide s.audioSide, ht s.audioSide, rfl, rfl, rfl, rfl, rfl, rfl, rfl⟩

theorem raise_sameControlSide (f : FaultCode) (s : State) : sameControlSide s (raise f s) :=
  ⟨rfl, rfl, rfl, rfl, rfl, rfl, rfl, rfl⟩

theorem produceSample_sameControlSide (c : Config) (s : State) : sameControlSide s (produceSample c s) := by
  cases hb : s.block with
  | none =>
    rw [produceSample_of_none c hb]
    exact ⟨rfl, rfl, rfl, rfl, rfl, rfl, rfl, rfl⟩
  | some b =>
    rw [produceSample_of_some c hb]
    by_cases hlt : b.produced + 1 < b.frames
    · rw [blockSample_of_lt c s hlt]
      exact ⟨rfl, rfl, rfl, rfl, rfl, rfl, rfl, rfl⟩
    · rw [blockSample_of_not_lt c s hlt]
      exact ⟨rfl, rfl, rfl, rfl, rfl, rfl, rfl, rfl⟩

/-- `F` is a RENDER request that does `g` (R97): only with no block in progress (R100). -/
structure BlockRequest (F : State → Host.Outcome State Fault Refusal) (g : State → State) : Prop where
  of_none {s : State} (hb : s.block = none) : F s = .next (g s)
  of_some {s : State} {b : Block} (hb : s.block = some b) : F s = .fault .renderOverlap

theorem BlockRequest.eq_of_next {F : State → Host.Outcome State Fault Refusal} {g : State → State} (hF : BlockRequest F g)
    {s t : State} (h : F s = .next t) : s.block = none ∧ t = g s := by
  obtain hb | ⟨b, hb⟩ := Option.eq_none_or_eq_some s.block
  · cases (hF.of_none hb).symm.trans h
    exact ⟨hb, rfl⟩
  · cases (hF.of_some hb).symm.trans h

theorem execRender_blockRequest (n : BitVec 20) : BlockRequest (execRender n) (renderBlock Config.hw n.toNat) where
  of_none hb := execRender_of_none n hb
  of_some hb := execRender_of_some n hb

theorem startRender_blockRequest (n : BitVec 20) : BlockRequest (startRender Config.hw n) (beginBlock Config.hw n.toNat) where
  of_none hb := startRender_of_none n hb
  of_some hb := by simp [startRender, hb]

theorem renderBlock_sameControlSide (c : Config) (n : Nat) (s : State) : sameControlSide s (renderBlock c n s) :=
  ⟨rfl, rfl, rfl, rfl, rfl, rfl, rfl, rfl⟩

theorem beginBlock_hw_sameControlSide (n : Nat) (s : State) : sameControlSide s (beginBlock Config.hw n s) :=
  ⟨rfl, rfl, rfl, rfl, rfl, rfl, rfl, rfl⟩

theorem execWord_audio_sameControlSide {w : Word} {s t : State} (h : execWord .audio w s = .next t) :
    sameControlSide s t := by
  rcases execWord_cases .audio w s with ⟨i, hd, he⟩ | ⟨r, -, he⟩
  · obtain ⟨n, rfl⟩ := decode_audio_ok hd
    obtain ⟨-, rfl⟩ := (execRender_blockRequest n).eq_of_next (he.symm.trans h)
    exact renderBlock_sameControlSide _ _ s
  · cases he.symm.trans h
    exact raise_sameControlSide _ s

theorem execBlockStart_sameControlSide {w : Word} {s t : State} (h : execBlockStart w s = .next t) :
    sameControlSide s t := by
  cases hd : decode .audio w with
  | ok i =>
    obtain ⟨n, rfl⟩ := decode_audio_ok hd
    obtain ⟨-, rfl⟩ := (startRender_blockRequest n).eq_of_next ((execBlockStart_render s hd).symm.trans h)
    exact beginBlock_hw_sameControlSide _ s
  | error r =>
    cases (execBlockStart_error s hd).symm.trans h
    exact raise_sameControlSide _ s

/-- Settles O18: on the audio port there are RENDER and the fault of an illegal word, and a block start and a sample write
registers of the audio side. -/
theorem audioPortNeverWritesTheSignalState : Obligations.AudioPortNeverWritesTheSignalState := by
  rintro e s t (rfl | ⟨w, rfl | rfl⟩) h
  · cases (sampleEvent_hw s).symm.trans h
    exact produceSample_sameControlSide Config.hw s
  · exact execWord_audio_sameControlSide h
  · exact execBlockStart_sameControlSide h

end Sys2Proof.Machine
end

section
/-! SUPPORT. `FAULT` (R108, R109): an event but a reset either raises a fault, or it neither reads nor writes the register. -/

namespace Sys2Proof.Machine

/-- From `s` the operation `F` neither reads nor writes `FAULT`: with any value in it, it answers the same and leaves that
value. -/
def KeepsFault (F : State → Host.Outcome State Fault Refusal) (s : State) : Prop :=
  ∀ f, F (s.setFault f) = mapNext (State.setFault · f) (F s)

/-- From `s`, with any value in `FAULT`, the operation `F` raises one fault and does nothing else. -/
def RaisesOnly (F : State → Host.Outcome State Fault Refusal) (s : State) : Prop :=
  ∃ r, ∀ f, F (s.setFault f) = .next (raise r (s.setFault f))

section Use

variable {F : State → Host.Outcome State Fault Refusal} {s t : State}

theorem KeepsFault.fault_eq (hF : KeepsFault F s) (h : F s = .next t) : t.fault = s.fault := by
  have hself : F s = mapNext (State.setFault · s.fault) (F s) := hF s.fault
  rw [h, mapNext_next, Host.Outcome.next.injEq] at hself
  rw [hself, State.setFault_fault]

theorem RaisesOnly.exists_eq_raise (hF : RaisesOnly F s) (h : F s = .next t) : ∃ r, t = raise r s := by
  obtain ⟨r, hr⟩ := hF
  exact ⟨r, Host.Outcome.next.inj (h.symm.trans (hr s.fault))⟩

end Use

/-! Operations -/

theorem exec_pressd_faultUse (sym : Symbol) (s : State) :
    KeepsFault (exec (.pressd sym)) s ∨ RaisesOnly (exec (.pressd sym)) s := by
  cases hl : lookup Config.hw sym with
  | some pair =>
    refine .inl fun f => ?_
    rw [exec_pressd_of_some hl, exec_pressd_of_some hl]
    rfl
  | none => exact .inr ⟨.unknownSymbol, fun _ => exec_pressd_of_none hl⟩

theorem exec_keydn_faultUse (key : KeyCode) (s : State) :
    KeepsFault (exec (.keydn key)) s ∨ RaisesOnly (exec (.keydn key)) s := by
  cases hk : s.keymap.read key.toNat with
  | none =>
    refine .inl fun f => ?_
    rw [exec_keydn_of_none hk, exec_keydn_of_none (s := s.setFault f) hk]
    rfl
  | some sym =>
    have hpress (f : FaultCode) : exec (.keydn key) (s.setFault f) = exec (.pressd sym) (s.setFault f) :=
      exec_keydn_of_some hk
    refine (exec_pressd_faultUse sym s).imp (fun hkeep f => ?_) (fun ⟨r, hr⟩ => ⟨r, fun f => (hpress f).trans (hr f)⟩)
    rw [hpress, hkeep, exec_keydn_of_some hk]

theorem releaseOnMatch_setFault (sym : Symbol) (s : State) (f : FaultCode) :
    releaseOnMatch sym (s.setFault f) = (releaseOnMatch sym s).setFault f := by
  simp only [releaseOnMatch, apply_ite (State.setFault · f)]
  rfl

theorem exec_keyup_keepsFault (key : KeyCode) (s : State) : KeepsFault (exec (.keyup key)) s := by
  intro f
  cases hk : s.keymap.read key.toNat with
  | none =>
    rw [exec_keyup_of_none hk, exec_keyup_of_none (s := s.setFault f) hk]
    rfl
  | some sym =>
    rw [exec_keyup_of_some hk, exec_keyup_of_some (s := s.setFault f) hk, mapNext_next, releaseOnMatch_setFault]

/-- What a RENDER request looks at is the block in progress. -/
theorem BlockRequest.keepsFault {F : State → Host.Outcome State Fault Refusal} {g : State → State} (hF : BlockRequest F g)
    (s : State) (hg : ∀ f, g (s.setFault f) = (g s).setFault f) : KeepsFault F s := by
  intro f
  obtain hb | ⟨b, hb⟩ := Option.eq_none_or_eq_some s.block
  · rw [hF.of_none hb, hF.of_none (s := s.setFault f) hb, hg, mapNext_next]
  · rw [hF.of_some hb, hF.of_some (s := s.setFault f) hb, mapNext_fault]

/-- An operation that is not a press has nothing to do with `FAULT`. -/
theorem exec_press_or_keepsFault (i : Instr) (s : State) :
    (∃ sym, i = .pressd sym) ∨ (∃ key, i = .keydn key) ∨ KeepsFault (exec i) s := by
  cases i with
  | pressd sym => exact .inl ⟨sym, rfl⟩
  | keydn key => exact .inr (.inl ⟨key, rfl⟩)
  | keyup key => exact .inr (.inr (exec_keyup_keepsFault key s))
  | render n => exact .inr (.inr ((execRender_blockRequest n).keepsFault s fun _ => rfl))
  | reld _ | pressmDial | pressmRing | pressmBusy | relmDial | relmRing | relmBusy | setamp _ | bindkey _ _ =>
    exact .inr (.inr fun _ => rfl)

theorem exec_faultUse (i : Instr) (s : State) : KeepsFault (exec i) s ∨ RaisesOnly (exec i) s := by
  obtain ⟨sym, rfl⟩ | ⟨key, rfl⟩ | hkeep := exec_press_or_keepsFault i s
  · exact exec_pressd_faultUse sym s
  · exact exec_keydn_faultUse key s
  · exact .inl hkeep

/-! Events -/

theorem execWord_faultUse (port : Port) (w : Word) (s : State) :
    KeepsFault (execWord port w) s ∨ RaisesOnly (execWord port w) s := by
  cases hd : decode port w with
  | ok i =>
    have hrun : execWord port w = exec i := funext fun _ => execWord_ok _ hd
    rw [hrun]
    exact exec_faultUse i s
  | error r => exact .inr ⟨.illegalCommand, fun _ => execWord_error _ hd⟩

theorem execBlockStart_faultUse (w : Word) (s : State) :
    KeepsFault (execBlockStart w) s ∨ RaisesOnly (execBlockStart w) s := by
  cases hd : decode .audio w with
  | ok i =>
    obtain ⟨n, rfl⟩ := decode_audio_ok hd
    have hrun : execBlockStart w = startRender Config.hw n := funext fun _ => execBlockStart_render _ hd
    rw [hrun]
    exact .inl ((startRender_blockRequest n).keepsFault s fun _ => rfl)
  | error r => exact .inr ⟨.illegalCommand, fun _ => execBlockStart_error _ hd⟩

/-- A sample reads and writes the audio side only, and `FAULT` is not of it. -/
theorem produceSample_setFault (c : Config) (s : State) (f : FaultCode) :
    produceSample c (s.setFault f) = (produceSample c s).setFault f := by
  have hself := produceSample_withAudioSide c s s
  rw [withAudioSide_self] at hself
  calc
    produceSample c (s.setFault f)
      = (s.setFault f).withAudioSide (produceSample c s).audioSide := produceSample_withAudioSide c s (s.setFault f)
    _ = (produceSample c s).setFault f := congrArg (State.setFault · f) hself.symm

/-- R108, R109: an event but a reset raises a fault and does nothing else, or it has nothing to do with `FAULT`; which of
the two does not depend on `FAULT`. -/
theorem execInput_faultUse {e : Input} (he : e ≠ .reset) (s : State) :
    KeepsFault (execInput e) s ∨ RaisesOnly (execInput e) s := by
  cases e with
  | reset => exact absurd rfl he
  | word port w => exact execWord_faultUse port w s
  | blockStart w => exact execBlockStart_faultUse w s
  | sample => exact .inl fun f => congrArg Host.Outcome.next (produceSample_setFault Config.hw s f)
  | modeWrite | read _ => exact .inl fun _ => rfl

/-! The obligations -/

/-- Settles O23: an event that raises a fault finds one held. -/
theorem firstFaultIsKeptUntilReset : Obligations.FirstFaultIsKeptUntilReset := by
  intro e s t he h hheld
  obtain hkeep | hraise := execInput_faultUse he s
  · exact hkeep.fault_eq h
  · obtain ⟨r, rfl⟩ := hraise.exists_eq_raise h
    rw [raise_of_ne r hheld]

/-- Settles O24: a word that changes `FAULT` raises a fault and does nothing else, and over a held one it would change
nothing. -/
theorem faultingOperationWritesNothingElse : Obligations.FaultingOperationWritesNothingElse := by
  intro port w s t h hchange
  obtain hkeep | hraise := execWord_faultUse port w s
  · exact absurd (hkeep.fault_eq h) hchange
  · obtain ⟨r, rfl⟩ := hraise.exists_eq_raise h
    refine ⟨by_contra fun hheld => hchange ?_, rfl⟩
    rw [raise_of_ne r hheld]

/-- Settles O25: a reset writes `FAULT` without reading it, an event that raises a fault leaves its update of what it finds,
and any other event what it finds. -/
theorem noEventReadsFault : Obligations.NoEventReadsFault := by
  intro e s t f h
  by_cases he : e = .reset
  · subst he
    cases h
    exact ⟨.noFault, rfl⟩
  obtain hkeep | ⟨r, hr⟩ := execInput_faultUse he s
  · exact ⟨f, (hkeep f).trans (by rw [h, mapNext_next]; rfl)⟩
  · cases (hr s.fault).symm.trans h
    exact ⟨stickyFault f r, hr f⟩

/-- Settles O21: an illegal word, and a press of an undefined symbol by PRESSD or KEYDN, raise; no other operation has to
do with `FAULT`. -/
theorem everyFaultIsRaisedAsTheRuleSays : Obligations.EveryFaultIsRaisedAsTheRuleSays := by
  refine ⟨fun _ _ s h => execWord_of_illegalWord s h, fun _ _ hl => exec_pressd_of_none hl,
    fun _ _ _ hk hl => (exec_keydn_of_some hk).trans (exec_pressd_of_none hl), fun i s t h hchange => ?_⟩
  obtain hpressd | hkeydn | hkeep := exec_press_or_keepsFault i s
  · exact .inl hpressd
  · exact .inr hkeydn
  · exact absurd (hkeep.fault_eq h) hchange

end Sys2Proof.Machine
end

section
/-! SUPPORT. 70_reset_and_hazards.md: a reset as one step (R121, R122), and a press and a release between two blocks (R125). -/

namespace Sys2Proof.Machine

/-! Reset -/

/-- A step that takes a reset leaves the reset state; of the state before it only the step count is kept. -/
theorem stepWith_reset {agents : Nat → Option Input} {s : State} (h : nextInput agents s = some .reset) :
    stepWith Config.hw agents s = .next (State.reset.setTime (s.time + 1)) :=
  stepWith_some h

/-- Settles O33: the state that the step leaves is the reset state, whose values R26 lists. -/
theorem resetRestoresEveryRegister : Obligations.ResetRestoresEveryRegister := by
  intro agents s hnext
  obtain ⟨hmode, hfreq, hampl, hsclk, hlastsym, hfault, hkeymap, hblock⟩ := resetStateHoldsTheResetValues
  exact ⟨State.reset.setTime (s.time + 1), stepWith_reset hnext, hmode, hfreq, hampl, hsclk, hlastsym, hfault, hkeymap,
    hblock, State.reset_outstanding, State.reset_presented, rfl⟩

/-! The output of an Idle block -/

/-- In Idle no tone sounds (R80), so the frequencies and the amplitude are not heard. -/
theorem sampleAt_of_idle (c : Config) {x : Snapshot} (hx : x.mode = .idle) (idx : BitVec 64) : sampleAt c x idx = 0 := by
  have hsilent (lo hi : Int) (n : Nat) : tones c x.mode lo hi n = [] := by rw [hx, tones]
  rw [sampleAt, synth_of_silent _ (hsilent _ _ _)]
  rfl

theorem blockSamples_of_idle (c : Config) {x : Snapshot} (hx : x.mode = .idle) (base : BitVec 64) (n : Nat) :
    blockSamples c x base n = List.replicate n 0 := by
  simp only [blockSamples, sampleAt_of_idle c hx, List.map_const', List.length_range]

/-- A whole block in Idle delivers zeros. -/
theorem renderBlock_pcm_of_idle (c : Config) (n : Nat) {s : State} (hs : s.mode = .idle) :
    (renderBlock c n s).pcm = s.pcm ++ List.replicate n 0 := by
  rw [renderBlock_pcm, blockSamples_of_idle c (x := s.signal) hs]

/-! A short press -/

/-- RELD under this hardware's `ALWAYS` leaves Idle and writes nothing else (R62). -/
theorem execInput_reld (sym : Symbol) (s : State) :
    execInput (.word .control (encode (.reld sym))) s = .next (s.setMode .idle) :=
  execWord_ok s (decode_encode (i := .reld sym) rfl)

/-- Settles O16: the press leaves the audio side, whatever it writes on the control side the release ends in Idle, and
there the samples are 0 at any `FREQ`. -/
theorem shortPressIsNeverHeard : Obligations.ShortPressIsNeverHeard := by
  intro press release n s hb hidle
  obtain ⟨t, hpress, haudio⟩ := execWord_control_audioSide (encode (.pressd press)) s
  have hpcm : t.pcm = s.pcm := congrArg AudioSide.pcm haudio
  have hsclk : t.sclk = s.sclk := congrArg AudioSide.sclk haudio
  have htb : (t.setMode .idle).block = none := (congrArg AudioSide.block haudio).trans hb
  refine ⟨renderBlock Config.hw n.toNat (t.setMode .idle), renderBlock Config.hw n.toNat s, ?_, execRender_of_none n hb,
    ?_, ?_⟩
  · rw [execInputs_cons_next (e := .word .control _) _ hpress, execInputs_cons_next _ (execInput_reld release t),
      execInputs_cons_next _ (execInput_renderWord_of_none n htb), execInputs_nil]
  · rw [renderBlock_pcm_of_idle _ _ (State.setMode_mode t .idle), renderBlock_pcm_of_idle _ _ hidle, State.setMode_pcm, hpcm]
  · rw [renderBlock_sclk, renderBlock_sclk, State.setMode_sclk, hsclk]

end Sys2Proof.Machine
end
